-- ==== Sys2Proof/Word.lean ====
section
/-! DEFINITION. The word types of the CORE (R10, R11): unsigned bit vectors of the widths the spec
gives, and the index types of its fixed banks. No arithmetic is defined here beyond `BitVec`'s own
wrapping `+` and `-`, which are the spec's `+8`, `-8`, `+16` and `-16`. -/

namespace Sys2Proof

/-- A u8: register contents, memory bytes, timers (R10, R21, R60). -/
abbrev Byte := BitVec 8

/-- A u16: `I`, `pc`, stack entries, instruction words (R11). -/
abbrev Word := BitVec 16

/-- A u12: the `nnn` field (R91). -/
abbrev Addr := BitVec 12

/-- A register number 0x0–0xF (R21); 0xF is VF. -/
abbrev Reg := Fin 16

/-- A logical key 0x0–0xF (R34, R335). -/
abbrev Key := Fin 16

/-- A framebuffer row number, 0 = top (R32). -/
abbrev RowIx := Fin 32

/-- A framebuffer column number, 0 = left (R32). -/
abbrev ColIx := Fin 64

/-- One framebuffer row as the 64-bit word `ROW[r]` of R33. -/
abbrev RowBits := BitVec 64

/-- The whole 64×32 frame, rows 0 to 31 in order (R32, R33). -/
abbrev Frame := Vector RowBits 32

/-- VF, the flag register: register 0xF (R23). -/
abbrev VF : Reg := 15

/-- V0, the register BNNN adds (R158). -/
abbrev V0 : Reg := 0

end Sys2Proof
end

