-- ==== Sys2Proof/Config.lean ====
section
/-! DEFINITION. What an implementation fixes (R7, R8): the configuration record with the spec's
defaults, the constants that are not parameters, and the free values of the host's answers and of
the one value the spec leaves unstated. Each free value is an opaque constant without a body, so no
proof can see what it is. -/

namespace Sys2Proof

/-- `MEM_ADDR_POLICY` (R64): what an address above 0xFFF does. -/
inductive AddrPolicy where
  /-- the address is taken mod 4096 (the default) -/
  | wrap
  /-- the access raises MemBounds -/
  | fault
  deriving DecidableEq, Repr

/-- `TIMER_PHASE` (R130): where the timer step stands in a frame tick. -/
inductive TimerPhase where
  | afterBatch
  | beforeBatch
  deriving DecidableEq, Repr

/-- The parameters the CORE is built with that R8 lists. They are fixed for a machine: the state
carries them, no step writes them. -/
structure Config where
  /-- `IPF`: cycles per frame tick, at most (R127) -/
  ipf           : Nat
  /-- `FONT_BASE` (R282, R69) -/
  fontBase      : Nat
  /-- `FONT_DATA`: 80 bytes, glyph k at offset 5k (R44) -/
  fontData      : List Byte
  /-- `STACK_DEPTH` (R28) -/
  stackDepth    : Nat
  /-- `WAIT_KEY_MAX` (R254) -/
  waitKeyMax    : Nat
  /-- `MEM_ADDR_POLICY` (R64) -/
  addrPolicy    : AddrPolicy
  /-- `LENIENT_DECODE` (R98) -/
  lenientDecode : Bool
  /-- `TIMER_PHASE` (R130) -/
  timerPhase    : TimerPhase
  /-- `MEM_FILL` (R42, R350) -/
  memFill       : Byte
  deriving DecidableEq, Repr

/-- `FONT_DATA` of R44, glyphs 0 to 7. -/
def fontLow : List Byte :=
  [0xF0, 0x90, 0x90, 0x90, 0xF0] ++ [0x20, 0x60, 0x20, 0x20, 0x70] ++
  [0xF0, 0x10, 0xF0, 0x80, 0xF0] ++ [0xF0, 0x10, 0xF0, 0x10, 0xF0] ++
  [0x90, 0x90, 0xF0, 0x10, 0x10] ++ [0xF0, 0x80, 0xF0, 0x10, 0xF0] ++
  [0xF0, 0x80, 0xF0, 0x90, 0xF0] ++ [0xF0, 0x10, 0x20, 0x40, 0x40]

/-- `FONT_DATA` of R44, glyphs 8 to F. -/
def fontHigh : List Byte :=
  [0xF0, 0x90, 0xF0, 0x90, 0xF0] ++ [0xF0, 0x90, 0xF0, 0x10, 0xF0] ++
  [0xF0, 0x90, 0xF0, 0x90, 0x90] ++ [0xE0, 0x90, 0xE0, 0x90, 0xE0] ++
  [0xF0, 0x80, 0x80, 0x80, 0xF0] ++ [0xE0, 0x90, 0x90, 0x90, 0xE0] ++
  [0xF0, 0x80, 0xF0, 0x80, 0xF0] ++ [0xF0, 0x80, 0xF0, 0x80, 0x80]

/-- The defaults of R7. -/
def Config.default : Config where
  ipf           := 100
  fontBase      := 0x050
  fontData      := fontLow ++ fontHigh
  stackDepth    := 16
  waitKeyMax    := 0xE
  addrPolicy    := .wrap
  lenientDecode := false
  timerPhase    := .afterBatch
  memFill       := 0x00

/-- `MEM_SIZE` (R7, R60). -/
abbrev memSize : Nat := 4096

/-- `PROGRAM_BASE`, also the reset pc (R7, R41). -/
abbrev programBase : Nat := 0x200

/-- `MAX_PROGRAM_LEN` (R7, R352). -/
abbrev maxProgramLen : Nat := 3584

/-- `FONT_GLYPH_BYTES` (R7). -/
abbrev glyphBytes : Nat := 5

/-- The length of the font region: 16 glyphs of 5 bytes (R7). -/
abbrev fontLen : Nat := 80

/-- What the display collaborator reports at a Flush or a Poll (R330, R331, R333): the ports `kd`,
`kr` and `quit_req` of R140. Bit k of a key set is logical key k. -/
structure Report where
  kd      : BitVec 16
  kr      : BitVec 16
  quitReq : Bool
  deriving DecidableEq, Repr, Inhabited

/-- FREE VALUE (R195, D21, U4; log entry 3): the byte of one CXNN, for the n-th question put to the
host, when State holds no queued draw. -/
opaque Config.freeDraw : Nat → Byte

/-- FREE VALUE (R330, R331, R333, U18; log entry 3): the key sets and the quit request of one Flush
or Poll, when State holds no queued answer. -/
opaque Config.freeReport : Nat → Report

/-- FREE VALUE (R331; log entry 3): `flush_ok` of one Flush, when State holds no queued answer. -/
opaque Config.freeFlushOk : Nat → Bool

/-- FREE VALUE (R334; log entry 3): `audio_ok` at one tone transition, when State holds no queued
answer. -/
opaque Config.freeAudioOk : Nat → Bool

/-- FREE VALUE (R312; log entry 4): `fault_pc` of an audio failure at the timer step. R312 gives the
word (0) there and no address, because no instruction is being executed. -/
opaque Config.freeTimerFaultPc : Nat → Word

end Sys2Proof
end

