-- ==== Sys2Proof/Syntax.lean ====
section
/-! DEFINITION. The instructions (R95): one constructor per row of spec/opcode_table.json, with the
decoded fields of R91 as operands. Register fields are `Fin 16`, `nn` is a u8, `nnn` a u12 and the
row count `n` a u4, so an operand out of range cannot be written. -/

namespace Sys2Proof

/-- One constructor per row of R95, in the table's order. -/
inductive Instr where
  /-- 00E0 CLS (R221) -/
  | cls
  /-- 00EE RET (R151) -/
  | ret
  /-- 1NNN JP nnn (R152) -/
  | jp (nnn : Addr)
  /-- 2NNN CALL nnn (R153) -/
  | call (nnn : Addr)
  /-- 3XNN SE Vx, nn (R154) -/
  | seImm (x : Reg) (nn : Byte)
  /-- 4XNN SNE Vx, nn (R155) -/
  | sneImm (x : Reg) (nn : Byte)
  /-- 5XY0 SE Vx, Vy (R156) -/
  | seReg (x y : Reg)
  /-- 6XNN LD Vx, nn (R181) -/
  | ldImm (x : Reg) (nn : Byte)
  /-- 7XNN ADD Vx, nn (R182) -/
  | addImm (x : Reg) (nn : Byte)
  /-- 8XY0 LD Vx, Vy (R183) -/
  | ldReg (x y : Reg)
  /-- 8XY1 OR Vx, Vy (R185) -/
  | orReg (x y : Reg)
  /-- 8XY2 AND Vx, Vy (R186) -/
  | andReg (x y : Reg)
  /-- 8XY3 XOR Vx, Vy (R187) -/
  | xorReg (x y : Reg)
  /-- 8XY4 ADD Vx, Vy (R188) -/
  | addReg (x y : Reg)
  /-- 8XY5 SUB Vx, Vy (R189) -/
  | subReg (x y : Reg)
  /-- 8XY6 SHR Vx, Vy (R191) -/
  | shrReg (x y : Reg)
  /-- 8XY7 SUBN Vx, Vy (R190) -/
  | subnReg (x y : Reg)
  /-- 8XYE SHL Vx, Vy (R193) -/
  | shlReg (x y : Reg)
  /-- 9XY0 SNE Vx, Vy (R157) -/
  | sneReg (x y : Reg)
  /-- ANNN LD I, nnn (R280) -/
  | ldI (nnn : Addr)
  /-- BNNN JP V0, nnn (R158) -/
  | jpV0 (nnn : Addr)
  /-- CXNN RND Vx, nn (R195) -/
  | rnd (x : Reg) (nn : Byte)
  /-- DXYN DRW Vx, Vy, n (R222) -/
  | drw (x y : Reg) (n : BitVec 4)
  /-- EX9E SKP Vx (R251) -/
  | skp (x : Reg)
  /-- EXA1 SKNP Vx (R252) -/
  | sknp (x : Reg)
  /-- FX07 LD Vx, DT (R253) -/
  | ldVxDt (x : Reg)
  /-- FX0A LD Vx, K (R254) -/
  | ldVxK (x : Reg)
  /-- FX15 LD DT, Vx (R255) -/
  | ldDtVx (x : Reg)
  /-- FX18 LD ST, Vx (R256) -/
  | ldStVx (x : Reg)
  /-- FX1E ADD I, Vx (R281) -/
  | addIVx (x : Reg)
  /-- FX29 LD F, Vx (R282) -/
  | ldFVx (x : Reg)
  /-- FX33 LD B, Vx (R283) -/
  | ldBVx (x : Reg)
  /-- FX55 LD [I], Vx (R285) -/
  | ldMemVx (x : Reg)
  /-- FX65 LD Vx, [I] (R286) -/
  | ldVxMem (x : Reg)
  deriving DecidableEq, Repr

end Sys2Proof
end

