-- ==== Sys2Proof/Decode.lean ====
section
/-! DEFINITION. Decoding (R90–R100): the six fields of a word, the decode procedure of R96 with the
`LENIENT_DECODE` alternative of R98, total on every word and rejecting an illegal word by the name
of its class (R97); then the encoder, the opcode map of R95 as a list of rows, and the decoding of
the opcode table's own words. -/

namespace Sys2Proof

/-! ## The six fields of R91 -/

/-- `op = w[15:12]`. -/
def fieldOp (w : Word) : BitVec 4 := w.extractLsb' 12 4

/-- `x = w[11:8]`, a register number. -/
def fieldX (w : Word) : Reg := (w.extractLsb' 8 4).toFin

/-- `y = w[7:4]`, a register number. -/
def fieldY (w : Word) : Reg := (w.extractLsb' 4 4).toFin

/-- `n = w[3:0]`. -/
def fieldN (w : Word) : BitVec 4 := w.extractLsb' 0 4

/-- `nn = w[7:0]`. -/
def fieldNN (w : Word) : Byte := w.extractLsb' 0 8

/-- `nnn = w[11:0]`. -/
def fieldNNN (w : Word) : Addr := w.extractLsb' 0 12

/-! ## The decoder -/

/-- The classes of illegal words (R97), each named. -/
inductive Illegal where
  /-- op 0 and neither 00E0 nor 00EE; every 0NNN machine-code call is here (R100) -/
  | machineCall
  /-- op 5 with n ≠ 0 -/
  | skipEqualNibble
  /-- op 8 with n not one of 0–7, E (R194) -/
  | aluSubop
  /-- op 9 with n ≠ 0 -/
  | skipNotEqualNibble
  /-- op E with nn not 9E or A1 -/
  | keySubop
  /-- op F with nn not one of the nine sub-opcodes -/
  | miscSubop
  deriving DecidableEq, Repr

/-- What decoding a word yields (R92): exactly one instruction, or the verdict Unknown with the
class of R97 the word falls in. -/
inductive Verdict where
  | ok (i : Instr)
  | unknown (why : Illegal)
  deriving DecidableEq, Repr

/-- The instruction of a verdict, if it is one. -/
def Verdict.instr? : Verdict → Option Instr
  | .ok i      => some i
  | .unknown _ => none

/-- Op 0 (R96): the whole word selects, or under `LENIENT_DECODE` the low byte alone (R98). -/
def decodeOp0 (lenient : Bool) (w : Word) : Verdict :=
  if lenient then
    if fieldNN w = 0xE0 then .ok .cls
    else if fieldNN w = 0xEE then .ok .ret
    else .unknown .machineCall
  else
    if w = 0x00E0 then .ok .cls
    else if w = 0x00EE then .ok .ret
    else .unknown .machineCall

/-- Op 8 (R96): the nibble n selects. -/
def decodeOp8 (w : Word) : Verdict :=
  if fieldN w = 0x0 then .ok (.ldReg (fieldX w) (fieldY w))
  else if fieldN w = 0x1 then .ok (.orReg (fieldX w) (fieldY w))
  else if fieldN w = 0x2 then .ok (.andReg (fieldX w) (fieldY w))
  else if fieldN w = 0x3 then .ok (.xorReg (fieldX w) (fieldY w))
  else if fieldN w = 0x4 then .ok (.addReg (fieldX w) (fieldY w))
  else if fieldN w = 0x5 then .ok (.subReg (fieldX w) (fieldY w))
  else if fieldN w = 0x6 then .ok (.shrReg (fieldX w) (fieldY w))
  else if fieldN w = 0x7 then .ok (.subnReg (fieldX w) (fieldY w))
  else if fieldN w = 0xE then .ok (.shlReg (fieldX w) (fieldY w))
  else .unknown .aluSubop

/-- Op E (R96): the byte nn selects. -/
def decodeOpE (w : Word) : Verdict :=
  if fieldNN w = 0x9E then .ok (.skp (fieldX w))
  else if fieldNN w = 0xA1 then .ok (.sknp (fieldX w))
  else .unknown .keySubop

/-- Op F (R96): the byte nn selects (rows 26–34). -/
def decodeOpF (w : Word) : Verdict :=
  if fieldNN w = 0x07 then .ok (.ldVxDt (fieldX w))
  else if fieldNN w = 0x0A then .ok (.ldVxK (fieldX w))
  else if fieldNN w = 0x15 then .ok (.ldDtVx (fieldX w))
  else if fieldNN w = 0x18 then .ok (.ldStVx (fieldX w))
  else if fieldNN w = 0x1E then .ok (.addIVx (fieldX w))
  else if fieldNN w = 0x29 then .ok (.ldFVx (fieldX w))
  else if fieldNN w = 0x33 then .ok (.ldBVx (fieldX w))
  else if fieldNN w = 0x55 then .ok (.ldMemVx (fieldX w))
  else if fieldNN w = 0x65 then .ok (.ldVxMem (fieldX w))
  else .unknown .miscSubop

/-- `Decode(w)` of R96, with R98's alternative for ops 0, 5 and 9. -/
def decodeWord (lenient : Bool) (w : Word) : Verdict :=
  if fieldOp w = 0x0 then decodeOp0 lenient w
  else if fieldOp w = 0x1 then .ok (.jp (fieldNNN w))
  else if fieldOp w = 0x2 then .ok (.call (fieldNNN w))
  else if fieldOp w = 0x3 then .ok (.seImm (fieldX w) (fieldNN w))
  else if fieldOp w = 0x4 then .ok (.sneImm (fieldX w) (fieldNN w))
  else if fieldOp w = 0x5 then
    if lenient || fieldN w == 0 then .ok (.seReg (fieldX w) (fieldY w))
    else .unknown .skipEqualNibble
  else if fieldOp w = 0x6 then .ok (.ldImm (fieldX w) (fieldNN w))
  else if fieldOp w = 0x7 then .ok (.addImm (fieldX w) (fieldNN w))
  else if fieldOp w = 0x8 then decodeOp8 w
  else if fieldOp w = 0x9 then
    if lenient || fieldN w == 0 then .ok (.sneReg (fieldX w) (fieldY w))
    else .unknown .skipNotEqualNibble
  else if fieldOp w = 0xA then .ok (.ldI (fieldNNN w))
  else if fieldOp w = 0xB then .ok (.jpV0 (fieldNNN w))
  else if fieldOp w = 0xC then .ok (.rnd (fieldX w) (fieldNN w))
  else if fieldOp w = 0xD then .ok (.drw (fieldX w) (fieldY w) (fieldN w))
  else if fieldOp w = 0xE then decodeOpE w
  else decodeOpF w

/-- The word of two bytes, `w = b0 : b1`, big-endian (R66, R90). -/
def wordOfBytes (b0 b1 : Byte) : Word := b0 ++ b1

/-- The two bytes of a word as they lie in memory: the first at the lower address (R66). -/
def bytesOfWord (w : Word) : Byte × Byte := (w.extractLsb' 8 8, w.extractLsb' 0 8)

/-- Decoding of the two bytes at `pc` and `pc + 1`; an instruction is never longer (R90). -/
def decodeBytes (lenient : Bool) (b0 b1 : Byte) : Verdict :=
  decodeWord lenient (wordOfBytes b0 b1)

/-! ## The encoder -/

/-- A register number as the 4-bit field that holds it. -/
def regField (x : Reg) : BitVec 4 := BitVec.ofFin x

/-- Format A of R93: `ooooaaaaaaaaaaaa`. -/
def formatA (op : BitVec 4) (nnn : Addr) : Word := op ++ nnn

/-- Format XK of R93: `ooooxxxxkkkkkkkk`. -/
def formatXK (op : BitVec 4) (x : Reg) (nn : Byte) : Word := op ++ regField x ++ nn

/-- Formats XY and XYN of R93: `ooooxxxxyyyy` and a last nibble. -/
def formatXY (op : BitVec 4) (x y : Reg) (n : BitVec 4) : Word :=
  op ++ regField x ++ regField y ++ n

/-- The word of an instruction, by the patterns of R95 (format XS is XK with the sub-opcode byte). -/
def encode : Instr → Word
  | .cls          => 0x00E0
  | .ret          => 0x00EE
  | .jp nnn       => formatA 0x1 nnn
  | .call nnn     => formatA 0x2 nnn
  | .seImm x nn   => formatXK 0x3 x nn
  | .sneImm x nn  => formatXK 0x4 x nn
  | .seReg x y    => formatXY 0x5 x y 0x0
  | .ldImm x nn   => formatXK 0x6 x nn
  | .addImm x nn  => formatXK 0x7 x nn
  | .ldReg x y    => formatXY 0x8 x y 0x0
  | .orReg x y    => formatXY 0x8 x y 0x1
  | .andReg x y   => formatXY 0x8 x y 0x2
  | .xorReg x y   => formatXY 0x8 x y 0x3
  | .addReg x y   => formatXY 0x8 x y 0x4
  | .subReg x y   => formatXY 0x8 x y 0x5
  | .shrReg x y   => formatXY 0x8 x y 0x6
  | .subnReg x y  => formatXY 0x8 x y 0x7
  | .shlReg x y   => formatXY 0x8 x y 0xE
  | .sneReg x y   => formatXY 0x9 x y 0x0
  | .ldI nnn      => formatA 0xA nnn
  | .jpV0 nnn     => formatA 0xB nnn
  | .rnd x nn     => formatXK 0xC x nn
  | .drw x y n    => formatXY 0xD x y n
  | .skp x        => formatXK 0xE x 0x9E
  | .sknp x       => formatXK 0xE x 0xA1
  | .ldVxDt x     => formatXK 0xF x 0x07
  | .ldVxK x      => formatXK 0xF x 0x0A
  | .ldDtVx x     => formatXK 0xF x 0x15
  | .ldStVx x     => formatXK 0xF x 0x18
  | .addIVx x     => formatXK 0xF x 0x1E
  | .ldFVx x      => formatXK 0xF x 0x29
  | .ldBVx x      => formatXK 0xF x 0x33
  | .ldMemVx x    => formatXK 0xF x 0x55
  | .ldVxMem x    => formatXK 0xF x 0x65

/-! ## The opcode map of R95 -/

/-- One row of R95: the word is the row's when `w & mask = pattern`. -/
structure OpcodeRow where
  mnemonic : String
  pattern  : Word
  mask     : Word
  deriving DecidableEq, Repr

/-- Whether a word is selected by a row (R95). -/
def OpcodeRow.selects (r : OpcodeRow) (w : Word) : Bool := w &&& r.mask == r.pattern

/-- The row of R95 an instruction belongs to; the mnemonic as spec/opcode_table.json spells it. -/
def rowOf : Instr → OpcodeRow
  | .cls          => ⟨"CLS",           0x00E0, 0xFFFF⟩
  | .ret          => ⟨"RET",           0x00EE, 0xFFFF⟩
  | .jp _         => ⟨"JP_nnn",        0x1000, 0xF000⟩
  | .call _       => ⟨"CALL_nnn",      0x2000, 0xF000⟩
  | .seImm _ _    => ⟨"SE_Vx__nn",     0x3000, 0xF000⟩
  | .sneImm _ _   => ⟨"SNE_Vx__nn",    0x4000, 0xF000⟩
  | .seReg _ _    => ⟨"SE_Vx__Vy",     0x5000, 0xF00F⟩
  | .ldImm _ _    => ⟨"LD_Vx__nn",     0x6000, 0xF000⟩
  | .addImm _ _   => ⟨"ADD_Vx__nn",    0x7000, 0xF000⟩
  | .ldReg _ _    => ⟨"LD_Vx__Vy",     0x8000, 0xF00F⟩
  | .orReg _ _    => ⟨"OR_Vx__Vy",     0x8001, 0xF00F⟩
  | .andReg _ _   => ⟨"AND_Vx__Vy",    0x8002, 0xF00F⟩
  | .xorReg _ _   => ⟨"XOR_Vx__Vy",    0x8003, 0xF00F⟩
  | .addReg _ _   => ⟨"ADD_Vx__Vy",    0x8004, 0xF00F⟩
  | .subReg _ _   => ⟨"SUB_Vx__Vy",    0x8005, 0xF00F⟩
  | .shrReg _ _   => ⟨"SHR_Vx__Vy",    0x8006, 0xF00F⟩
  | .subnReg _ _  => ⟨"SUBN_Vx__Vy",   0x8007, 0xF00F⟩
  | .shlReg _ _   => ⟨"SHL_Vx__Vy",    0x800E, 0xF00F⟩
  | .sneReg _ _   => ⟨"SNE_Vx__Vy",    0x9000, 0xF00F⟩
  | .ldI _        => ⟨"LD_I__nnn",     0xA000, 0xF000⟩
  | .jpV0 _       => ⟨"JP_V0__nnn",    0xB000, 0xF000⟩
  | .rnd _ _      => ⟨"RND_Vx__nn",    0xC000, 0xF000⟩
  | .drw _ _ _    => ⟨"DRW_Vx__Vy__n", 0xD000, 0xF000⟩
  | .skp _        => ⟨"SKP_Vx",        0xE09E, 0xF0FF⟩
  | .sknp _       => ⟨"SKNP_Vx",       0xE0A1, 0xF0FF⟩
  | .ldVxDt _     => ⟨"LD_Vx__DT",     0xF007, 0xF0FF⟩
  | .ldVxK _      => ⟨"LD_Vx__K",      0xF00A, 0xF0FF⟩
  | .ldDtVx _     => ⟨"LD_DT__Vx",     0xF015, 0xF0FF⟩
  | .ldStVx _     => ⟨"LD_ST__Vx",     0xF018, 0xF0FF⟩
  | .addIVx _     => ⟨"ADD_I__Vx",     0xF01E, 0xF0FF⟩
  | .ldFVx _      => ⟨"LD_F__Vx",      0xF029, 0xF0FF⟩
  | .ldBVx _      => ⟨"LD_B__Vx",      0xF033, 0xF0FF⟩
  | .ldMemVx _    => ⟨"LD__I___Vx",    0xF055, 0xF0FF⟩
  | .ldVxMem _    => ⟨"LD_Vx___I",     0xF065, 0xF0FF⟩

/-- An instruction of each row, in the table's order, all operands 0. -/
def rowWitnesses : List Instr :=
  [.cls, .ret, .jp 0, .call 0, .seImm 0 0, .sneImm 0 0, .seReg 0 0, .ldImm 0 0, .addImm 0 0] ++
  [.ldReg 0 0, .orReg 0 0, .andReg 0 0, .xorReg 0 0, .addReg 0 0, .subReg 0 0, .shrReg 0 0] ++
  [.subnReg 0 0, .shlReg 0 0, .sneReg 0 0, .ldI 0, .jpV0 0, .rnd 0 0, .drw 0 0 0, .skp 0] ++
  [.sknp 0, .ldVxDt 0, .ldVxK 0, .ldDtVx 0, .ldStVx 0, .addIVx 0, .ldFVx 0, .ldBVx 0] ++
  [.ldMemVx 0, .ldVxMem 0]

/-- The opcode map of R95: its 34 rows in order. -/
def opcodeMap : List OpcodeRow := rowWitnesses.map rowOf

/-! ## The words of spec/opcode_table.json -/

/-- The two bytes of a table word of `nbits` bits, every bit above them 0; the table numbers a
word's bits as R9 does, so bits 15:8 are the first byte. -/
def tableBytes (nbits w : Nat) : Byte × Byte :=
  bytesOfWord (BitVec.ofNat 16 (w % 2 ^ nbits))

/-- The instruction the decoder reads from a table word, under the default configuration. -/
def decodeTableWord (nbits w : Nat) : Option Instr :=
  (decodeBytes Config.default.lenientDecode (tableBytes nbits w).1 (tableBytes nbits w).2).instr?

end Sys2Proof
end

