-- ==== Sys2Proof/Machine/State.lean ====
section
/-! DEFINITION. The machine's state as plain data (R20), the reasons a step can stop, and reset
(R42, R350). -/

namespace Sys2Proof.Machine

/-- Memory as the listed cells, in the canonical form `Memory.wf` of Machine/Ops.lean; an address
that is not listed reads as its reset contents. -/
abbrev Memory := List Host.Cell

/-- The fault kinds of R311; `noFault` is its code 0. -/
inductive FaultKind where
  | noFault
  /-- R313: the fetched word matches no instruction -/
  | unknownOpcode
  /-- R314: 00EE with an empty call stack -/
  | stackUnderflow
  /-- R315: 2NNN with `STACK_DEPTH` entries pushed -/
  | stackOverflow
  /-- R316: an address above 0xFFF, under `MEM_ADDR_POLICY = Fault` -/
  | memBounds
  /-- R317: the display or audio collaborator reports a failure -/
  | hostIo
  deriving DecidableEq, Repr

/-- The `info` of a fault record (R312): the failing address for MemBounds, the collaborator for
HostIo. -/
inductive FaultInfo where
  | noInfo
  | address (a : Nat)
  | display
  | audio
  deriving DecidableEq, Repr

/-- The fault record of R312. -/
structure FaultRecord where
  kind : FaultKind
  pc   : Word
  word : Word
  info : FaultInfo
  deriving DecidableEq, Repr

/-- The address `a` and the word `w` of the instruction being executed, which R122 hands to
Execute and R312 records. -/
structure InsLatch where
  addr : Word
  word : Word
  deriving DecidableEq, Repr

/-- The display output (R140, R331): `frame_rows` as last sent, and how many `frame_valid` strobes
there have been. -/
structure DisplayOut where
  rows  : Frame
  count : Nat
  deriving DecidableEq, Repr

/-- One answer to a Flush (R331). -/
structure FlushAnswer where
  ok     : Bool
  report : Report
  deriving DecidableEq, Repr

/-- The host's answers the CORE has still to read, oldest first, one list for each interaction of
R330 and one for `rand8`; and how many answers it has read. Where a list is empty the next answer
is a free value of Config, taken at the count. -/
structure HostAnswers where
  flushes : List FlushAnswer
  polls   : List Report
  audios  : List Bool
  draws   : List Byte
  asked   : Nat
  deriving DecidableEq, Repr

/-- The state of the CORE (R20). Beside the spec's own fields stand: `cfg`, the parameters it is
built with (R8); `inTick`, whether a FrameTick of R130 is running; `ended`, whether the run has
ended by quit (R133); `ins`, the `a` and `w` of R122; `out` and `host`, the ports of R140. -/
structure State where
  /-- the parameters the CORE is built with (R8) -/
  cfg      : Config
  /-- `mem` (R60) -/
  mem      : Memory
  /-- `V[0..15]` (R21) -/
  v        : Vector Byte 16
  /-- `I` (R26) -/
  i        : Word
  /-- `pc` (R27) -/
  pc       : Word
  /-- `stack`, index 0 the bottom; `sp` is its length (R28, R29) -/
  stack    : List Word
  /-- `DT` (R30) -/
  dt       : Byte
  /-- `ST` (R31) -/
  st       : Byte
  /-- `FB` as `ROW[0..31]` (R32, R33) -/
  fb       : Frame
  /-- `KD`, bit k for key k (R34) -/
  kd       : BitVec 16
  /-- `KR`, bit k for key k (R34) -/
  kr       : BitVec 16
  /-- `quit` (R35) -/
  quit     : Bool
  /-- `slot` (R37) -/
  slot     : Nat
  /-- `batch_end` (R37) -/
  batchEnd : Bool
  /-- `halted` (R38) -/
  halted   : Bool
  /-- `fault` (R38, R312) -/
  fault    : FaultRecord
  /-- the run has ended by quit (R133, R134) -/
  ended    : Bool
  /-- a frame tick is running (R130) -/
  inTick   : Bool
  /-- the address and word of the instruction being executed (R122) -/
  ins      : InsLatch
  /-- `frame_rows`, `frame_valid` (R140, R331) -/
  out      : DisplayOut
  /-- the host's answers still to be read (R140, R330) -/
  host     : HostAnswers
  deriving DecidableEq, Repr

/-- Why a step stops. Neither is raised by an instruction's meaning. -/
inductive Fault where
  /-- Raised by `step` in a state with `halted = 1`: "the engine takes no cycle and no frame tick is
  run: the state is stuck for good" (R125). Safe: nothing is claimed of a step the CORE does not
  take. -/
  | coreHalted
  /-- Raised by `step` after the run has ended by quit: "no cycle is taken either" (R125, R133).
  Safe, for the same reason. -/
  | runEnded
  deriving DecidableEq, Repr

/-- What the model refuses. -/
inductive Refusal where
  /-- Raised by an arm of `exec` for an instruction without a meaning; no arm raises it. Safe. -/
  | notModelled (mnemonic : String)
  /-- Raised by `loadProgram` for a program longer than 3584 bytes: "the load is refused and the
  CORE does not start" (R352). Safe: no run exists. -/
  | programTooLong (length : Nat)
  deriving DecidableEq, Repr

/-- An instruction's pseudocode runs to its end, or stops where it raised a fault (R124); either
way the writes made so far stand. -/
inductive Flow where
  | go (s : State)
  | halt (s : State)
  deriving DecidableEq, Repr

/-- The state a flow has reached. -/
def Flow.state : Flow → State
  | .go s   => s
  | .halt s => s

/-- The rest of the pseudocode, run only if no fault was raised (R124). -/
def Flow.andThen : Flow → (State → Flow) → Flow
  | .go s,   k => k s
  | .halt s, _ => .halt s

/-- An all-clear frame. -/
def blankFrame : Frame := Vector.replicate 32 0

/-- The state after reset with no program loaded (R42, R350), for a CORE built with `cfg`. Memory
lists nothing: fill and font are what an unlisted address reads as. -/
def State.resetWith (cfg : Config) : State where
  cfg      := cfg
  mem      := []
  v        := Vector.replicate 16 0
  i        := 0
  pc       := 0x200
  stack    := []
  dt       := 0
  st       := 0
  fb       := blankFrame
  kd       := 0
  kr       := 0
  quit     := false
  slot     := 0
  batchEnd := false
  halted   := false
  fault    := ⟨.noFault, 0, 0, .noInfo⟩
  ended    := false
  inTick   := false
  ins      := ⟨0, 0⟩
  out      := ⟨blankFrame, 0⟩
  host     := ⟨[], [], [], [], 0⟩

/-- The machine right after reset, built with the defaults of R7. -/
def State.reset : State := State.resetWith Config.default

end Sys2Proof.Machine
end

