-- ==== Sys2Proof/Machine/Ops.lean ====
section
/-! DEFINITION. The named operations every meaning is written with: registers (R21), memory behind
the arbiter (R62–R64), raising a fault (R312), the call stack (R29), the framebuffer (R32, R33), and
the interactions with the host (R321, R331–R334, R195). -/

namespace Sys2Proof.Machine

/-! ## Registers -/

/-- `V[x]` (R11). -/
def State.reg (s : State) (x : Reg) : Byte := s.v[x.val]

/-- `V[x] <- b` (R11, R21). -/
def State.setReg (s : State) (x : Reg) (b : Byte) : State := { s with v := s.v.set x.val b }

/-- `I <- w` (R26). -/
def State.setI (s : State) (w : Word) : State := { s with i := w }

/-- `pc <- w` (R27). -/
def State.setPc (s : State) (w : Word) : State := { s with pc := w }

/-- `DT <- b` (R30). -/
def State.setDt (s : State) (b : Byte) : State := { s with dt := b }

/-- `tone`, the output level: "`tone = (ST ≠ 0)` at all times" (R36). -/
def State.tone (s : State) : Bool := s.st != 0

/-- `sp`: the number of entries (R28). -/
def State.sp (s : State) : Nat := s.stack.length

/-! ## Memory -/

/-- What an address that no cell lists reads as: the reset contents, the font in its region and
`MEM_FILL` elsewhere (R42, R350 steps 1 and 2). -/
def unlistedByte (cfg : Config) (a : Nat) : Byte :=
  if cfg.fontBase ≤ a ∧ a < cfg.fontBase + fontLen then
    (cfg.fontData[a - cfg.fontBase]?).getD cfg.memFill
  else cfg.memFill

/-- The canonical form: addresses strictly rising and inside the 4096 bytes, and no cell that holds
what an unlisted address reads as. -/
abbrev Memory.wf (cfg : Config) (m : Memory) : Prop :=
  m.Pairwise (fun c d => c.1 < d.1) ∧ ∀ c ∈ m, c.1 < memSize ∧ c.2 ≠ unlistedByte cfg c.1

/-- `mem[a]` for an address in range (R62). -/
def memGet (cfg : Config) : Memory → Nat → Byte
  | [], a          => unlistedByte cfg a
  | (k, b) :: m, a => if a = k then b else memGet cfg m a

/-- Lists a byte at its place in the rising order, in the place of one already there. -/
def memInsert : Memory → Nat → Byte → Memory
  | [], a, b          => [(a, b)]
  | (k, c) :: m, a, b =>
      if a < k then (a, b) :: (k, c) :: m
      else if a = k then (a, b) :: m
      else (k, c) :: memInsert m a b

/-- `mem[a] <- b` in canonical form (R63): a byte that equals what an unlisted address reads as is
taken off the list. -/
def memSet (cfg : Config) (m : Memory) (a : Nat) (b : Byte) : Memory :=
  if b = unlistedByte cfg a then m.filter (fun c => c.1 != a) else memInsert m a b

/-- `Reduce(a)` (R64): the address mod 4096 under `Wrap`; under `Fault`, none for an address above
0xFFF, which raises MemBounds. -/
def reduceAddr (p : AddrPolicy) (a : Nat) : Option Nat :=
  match p with
  | .wrap  => some (a % memSize)
  | .fault => if a ≤ 0xFFF then some a else none

/-- The byte at an address already reduced. -/
def State.peek (s : State) (a : Nat) : Byte := memGet s.cfg s.mem a

/-- The write of a byte at an address already reduced. -/
def State.poke (s : State) (a : Nat) (b : Byte) : State := { s with mem := memSet s.cfg s.mem a b }

/-- `MemRead(a, 1)` (R62, R64); none where the access raises MemBounds. -/
def State.memRead (s : State) (a : Nat) : Option Byte := (reduceAddr s.cfg.addrPolicy a).map s.peek

/-- `MemWrite(a, 1, b)` (R63, R64); none where the access raises MemBounds. -/
def State.memWrite (s : State) (a : Nat) (b : Byte) : Option State :=
  (reduceAddr s.cfg.addrPolicy a).map (fun A => s.poke A b)

/-! ## Raising a fault

The CORE's one kind of exception is fatal (R310). There is no return from it (R323), so no
operation stands beside `raise`. -/

/-- `raise Fault(kind, info)` of R312: "sets `halted <- 1` and `fault <- {kind, fault_pc = a,
fault_word = w, info}`"; all other state stays as it was at the fault point. -/
def State.raise (s : State) (kind : FaultKind) (info : FaultInfo) (a w : Word) : State :=
  { s with halted := true, fault := ⟨kind, a, w, info⟩ }

/-- A fault of the instruction being executed: `a` and `w` are its own (R312). -/
def State.raiseIns (s : State) (kind : FaultKind) (info : FaultInfo) : State :=
  s.raise kind info s.ins.addr s.ins.word

/-! ## The call stack -/

/-- Push: "appends at the top" (R29). -/
def State.push (s : State) (w : Word) : State := { s with stack := s.stack ++ [w] }

/-- Pop: "removes the top" (R29); none when the stack is empty. -/
def State.pop (s : State) : Option (Word × State) :=
  match s.stack.getLast? with
  | none   => none
  | some w => some (w, { s with stack := s.stack.dropLast })

/-! ## Byte sequences behind the arbiter -/

/-- Byte writes at `a`, `a + 1`, … in order, stopping at the first address that faults with the
earlier writes done (R124, R283). -/
def storeBytes : List Byte → Nat → State → Flow
  | [], _, s      => .go s
  | b :: bs, a, s =>
      match s.memWrite a b with
      | none   => .halt (s.raiseIns .memBounds (.address a))
      | some t => storeBytes bs (a + 1) t

/-- The loop of R285: `MemWrite(I, 1, V[i]); I <- I +16 1` for each register of the list. -/
def dumpRegs : List Reg → State → Flow
  | [], s      => .go s
  | r :: rs, s =>
      match s.memWrite s.i.toNat (s.reg r) with
      | none   => .halt (s.raiseIns .memBounds (.address s.i.toNat))
      | some t => dumpRegs rs (t.setI (s.i + 1))

/-- The loop of R286: `V[i] <- MemRead(I, 1); I <- I +16 1` for each register of the list. -/
def loadRegs : List Reg → State → Flow
  | [], s      => .go s
  | r :: rs, s =>
      match s.memRead s.i.toNat with
      | none   => .halt (s.raiseIns .memBounds (.address s.i.toNat))
      | some b => loadRegs rs ((s.setReg r b).setI (s.i + 1))

/-! ## The framebuffer -/

/-- `FB[r][c] = ROW[r][63 − c]` (R33). -/
def State.pixel (s : State) (r : RowIx) (c : ColIx) : Bool := s.fb[r.val].getLsbD (63 - c.val)

/-- The bit of column c in a row word (R33). -/
def columnMask (c : ColIx) : RowBits := 1#64 <<< (63 - c.val)

/-- `FB[r][c] <- 1` (R222). -/
def State.lightPixel (s : State) (r : RowIx) (c : ColIx) : State :=
  { s with fb := s.fb.set r.val (s.fb[r.val] ||| columnMask c) }

/-- `FB[r][c] <- 0` (R222). -/
def State.clearPixel (s : State) (r : RowIx) (c : ColIx) : State :=
  { s with fb := s.fb.set r.val (s.fb[r.val] &&& ~~~ columnMask c) }

/-- Every pixel cleared (R221). -/
def State.clearScreen (s : State) : State := { s with fb := blankFrame }

/-- One set sprite bit (R222): a set pixel is cleared and VF becomes 1, a clear one is set. -/
def State.flipPixel (s : State) (r : RowIx) (c : ColIx) : State :=
  if s.pixel r c then (s.clearPixel r c).setReg VF 1 else s.lightPixel r c

/-- The inner loop of R222 over the columns j of one sprite row, "no horizontal wrap": it breaks at
the right edge. -/
def drawColumns (r : RowIx) (ox : Nat) (row : Byte) : List Nat → State → State
  | [], s      => s
  | j :: js, s =>
      if h : ox + j < 64 then
        drawColumns r ox row js
          (if row.getLsbD (7 - j) then s.flipPixel r ⟨ox + j, h⟩ else s)
      else s

/-- The outer loop of R222: `k` rows left, row i next, "no vertical wrap": it breaks at the bottom
edge before the row's byte is read (R227). -/
def drawRows (ox oy : Nat) : Nat → Nat → State → Flow
  | 0, _, s     => .go s
  | k + 1, i, s =>
      if h : oy + i < 32 then
        match s.memRead (s.i.toNat + i) with
        | none     => .halt (s.raiseIns .memBounds (.address (s.i.toNat + i)))
        | some row => drawRows ox oy k (i + 1) (drawColumns ⟨oy + i, h⟩ ox row (List.range 8) s)
      else .go s

/-! ## The host's answers -/

/-- The answer the next Flush gets (R331). -/
def State.flushAnswer (s : State) : FlushAnswer :=
  s.host.flushes.headD ⟨Config.freeFlushOk s.host.asked, Config.freeReport s.host.asked⟩

/-- The report the next Poll gets (R333). -/
def State.pollAnswer (s : State) : Report := s.host.polls.headD (Config.freeReport s.host.asked)

/-- The `audio_ok` of the next tone transition (R334). -/
def State.audioAnswer (s : State) : Bool := s.host.audios.headD (Config.freeAudioOk s.host.asked)

/-- `Draw8()`: the byte of the next CXNN (R195). -/
def State.drawAnswer (s : State) : Byte := s.host.draws.headD (Config.freeDraw s.host.asked)

/-- The flush answer has been read. -/
def State.takeFlush (s : State) : State :=
  { s with host := { s.host with flushes := s.host.flushes.tail, asked := s.host.asked + 1 } }

/-- The poll report has been read. -/
def State.takePoll (s : State) : State :=
  { s with host := { s.host with polls := s.host.polls.tail, asked := s.host.asked + 1 } }

/-- The audio answer has been read. -/
def State.takeAudio (s : State) : State :=
  { s with host := { s.host with audios := s.host.audios.tail, asked := s.host.asked + 1 } }

/-- The random byte has been read. -/
def State.takeDraw (s : State) : State :=
  { s with host := { s.host with draws := s.host.draws.tail, asked := s.host.asked + 1 } }

/-- `KD <- kd; KR <- kr; quit <- quit | quit_req` (R331, R333). -/
def State.accept (s : State) (r : Report) : State :=
  { s with kd := r.kd, kr := r.kr, quit := s.quit || r.quitReq }

/-- The frame is sent: `frame_rows = ROW[0..31]` with a `frame_valid` strobe (R331). -/
def State.sendFrame (s : State) : State := { s with out := ⟨s.fb, s.out.count + 1⟩ }

/-- `Flush()` (R331): the frame is sent, then HostIo is raised if `flush_ok = 0`, else the report
is taken over. -/
def State.flush (s : State) : Flow :=
  if s.flushAnswer.ok then .go (s.sendFrame.takeFlush.accept s.flushAnswer.report)
  else .halt (s.sendFrame.takeFlush.raiseIns .hostIo .display)

/-- `EndBatch()` (R129). -/
def State.endBatch (s : State) : State := { s with batchEnd := true }

/-- What CLS and DRW end with (R220): `Flush()`, then `EndBatch()`. -/
def State.flushAndEndBatch (s : State) : Flow := s.flush.andThen (fun t => .go t.endBatch)

/-- `Poll()` (R333). -/
def State.poll (s : State) : State := s.takePoll.accept s.pollAnswer

/-- `ST <- b` with the tone interaction of R334: at a transition of `tone` the host answers
`audio_ok`, and 0 raises HostIo after the new ST is written (R317). `a` and `w` are what the fault
record names (R312). -/
def State.setSound (s : State) (b : Byte) (a w : Word) : Flow :=
  let t := { s with st := b }
  if t.tone = s.tone then .go t
  else if s.audioAnswer then .go t.takeAudio
  else .halt (t.takeAudio.raise .hostIo .audio a w)

/-- One countdown: "whenever non-zero", no underflow (R321). -/
def countDown (t : Byte) : Byte := if t = 0 then 0 else t - 1

/-- `TimerTick()` (R321); an audio failure is recorded with the word 0 (R312). -/
def State.timerTick (s : State) : Flow :=
  (s.setDt (countDown s.dt)).setSound (countDown s.st) (Config.freeTimerFaultPc s.host.asked) 0

/-! ## Output ports (R140) -/

/-- The codes of R311, the port `fault_kind`. -/
def FaultKind.code : FaultKind → BitVec 3
  | .noFault        => 0
  | .unknownOpcode  => 1
  | .stackUnderflow => 2
  | .stackOverflow  => 3
  | .memBounds      => 4
  | .hostIo         => 5

/-- The port `run_end`: 0 running, 1 QUIT, 2 FAULT (R134, R140). -/
def State.runEnd (s : State) : BitVec 2 :=
  if s.halted then 2 else if s.ended then 1 else 0

end Sys2Proof.Machine
end

