-- ==== Sys2Proof/Machine/Flags.lean ====
section
/-! DEFINITION. The flag values written to VF (R24) and the order in which a result and its flag are
written (R25). DRW's collision flag is raised by `State.flipPixel` of Machine/Ops.lean. -/

namespace Sys2Proof.Machine

/-- A flag as a register value: 1 or 0. -/
def flagByte (b : Bool) : Byte := if b then 1 else 0

/-- 8XY4: "1 if `V[x] + V[y] ≥ 256`, else 0" (R24, R188). -/
def carryFlag (a b : Byte) : Byte := flagByte (decide (256 ≤ a.toNat + b.toNat))

/-- 8XY5 and, with its operands exchanged, 8XY7: 1 if a − b borrows nothing, that is a ≥ b (R24,
R189, R190). -/
def noBorrowFlag (a b : Byte) : Byte := flagByte (decide (b.toNat ≤ a.toNat))

/-- 8XY6: bit 0 of the operand (R24, R191). -/
def lowBitFlag (b : Byte) : Byte := flagByte (b.getLsbD 0)

/-- 8XYE: bit 7 of the operand (R24, R193). -/
def highBitFlag (b : Byte) : Byte := flagByte (b.getLsbD 7)

/-- `V[x] <- result`, then `VF <- flag`: the flag is the last write (R25). -/
def State.setRegThenFlag (s : State) (x : Reg) (result flag : Byte) : State :=
  (s.setReg x result).setReg VF flag

end Sys2Proof.Machine
end

