-- ==== Sys2Proof/Machine/Operands.lean ====
section
/-! DEFINITION. Operand forms (R94): how the fields of an instruction and the registers they name
become the values its rule works with. -/

namespace Sys2Proof.Machine

/-- `zext_16` of a byte (R10, R94). -/
def zextByte (b : Byte) : Word := b.setWidth 16

/-- `zext_16` of `nnn` (R94). -/
def zextAddr (nnn : Addr) : Word := nnn.setWidth 16

/-- `V[x] & 0xF` as a key or a hex digit (R250, R282). -/
def lowNibble (b : Byte) : Fin 16 := (b.extractLsb' 0 4).toFin

/-- The target of BNNN: `zext_16(nnn) +16 zext_16(V[0])` (R158). -/
def State.offsetTarget (s : State) (nnn : Addr) : Word := zextAddr nnn + zextByte (s.reg V0)

/-- `FONT_BASE + 5 × (V[x] & 0xF)` (R282). -/
def glyphAddress (cfg : Config) (b : Byte) : Word :=
  BitVec.ofNat 16 (cfg.fontBase + glyphBytes * (lowNibble b).val)

/-- The decimal digits of a byte: hundreds, tens, units (R283). -/
def bcdDigits (b : Byte) : List Byte :=
  [BitVec.ofNat 8 (b.toNat / 100), BitVec.ofNat 8 (b.toNat / 10 % 10), BitVec.ofNat 8 (b.toNat % 10)]

/-- The registers 0 to x in increasing order (R284). -/
def regsUpTo (x : Reg) : List Reg := (List.finRange 16).take (x.val + 1)

/-- The origin column of a sprite, `V[x] mod 64` (R223). -/
def originColumn (b : Byte) : Nat := b.toNat % 64

/-- The origin row of a sprite, `V[y] mod 32` (R223). -/
def originRow (b : Byte) : Nat := b.toNat % 32

/-- `KD[k]` (R34). -/
def State.keyDown (s : State) (k : Key) : Bool := s.kd.getLsbD k.val

/-- `KR[k]` (R34). -/
def State.keyReleased (s : State) (k : Key) : Bool := s.kr.getLsbD k.val

/-- The lowest-indexed released key of 0..`WAIT_KEY_MAX`, if any (R254). -/
def State.firstReleased (s : State) : Option Key :=
  (List.finRange 16).find? (fun k => decide (k.val ≤ s.cfg.waitKeyMax) && s.keyReleased k)

/-- The byte a key's number is stored as (R254). -/
def keyByte (k : Key) : Byte := BitVec.ofNat 8 k.val

end Sys2Proof.Machine
end

