-- ==== Sys2Proof/Machine/Alu.lean ====
section
/-! DEFINITION. Register loads and the 8-bit ALU (R180–R195). The operands of an 8XYn instruction
are sampled before any write (R184). -/

namespace Sys2Proof.Machine

/-- 6XNN LD Vx, nn (R181). -/
def execLdImm (x : Reg) (nn : Byte) (s : State) : Host.Outcome State Fault Refusal :=
  .next (s.setReg x nn)

/-- 7XNN ADD Vx, nn (R182): wraps, and touches no flag. -/
def execAddImm (x : Reg) (nn : Byte) (s : State) : Host.Outcome State Fault Refusal :=
  .next (s.setReg x (s.reg x + nn))

/-- 8XY0 LD Vx, Vy (R183): writes no flag. -/
def execLdReg (x y : Reg) (s : State) : Host.Outcome State Fault Refusal :=
  .next (s.setReg x (s.reg y))

/-- 8XY1 OR Vx, Vy (R185): zeroes VF. -/
def execOrReg (x y : Reg) (s : State) : Host.Outcome State Fault Refusal :=
  .next (s.setRegThenFlag x (s.reg x ||| s.reg y) 0)

/-- 8XY2 AND Vx, Vy (R186): zeroes VF. -/
def execAndReg (x y : Reg) (s : State) : Host.Outcome State Fault Refusal :=
  .next (s.setRegThenFlag x (s.reg x &&& s.reg y) 0)

/-- 8XY3 XOR Vx, Vy (R187): zeroes VF. -/
def execXorReg (x y : Reg) (s : State) : Host.Outcome State Fault Refusal :=
  .next (s.setRegThenFlag x (s.reg x ^^^ s.reg y) 0)

/-- 8XY4 ADD Vx, Vy (R188). -/
def execAddReg (x y : Reg) (s : State) : Host.Outcome State Fault Refusal :=
  .next (s.setRegThenFlag x (s.reg x + s.reg y) (carryFlag (s.reg x) (s.reg y)))

/-- 8XY5 SUB Vx, Vy (R189): Vx − Vy. -/
def execSubReg (x y : Reg) (s : State) : Host.Outcome State Fault Refusal :=
  .next (s.setRegThenFlag x (s.reg x - s.reg y) (noBorrowFlag (s.reg x) (s.reg y)))

/-- 8XY6 SHR Vx, Vy (R191, R192): shifts Vy. -/
def execShrReg (x y : Reg) (s : State) : Host.Outcome State Fault Refusal :=
  .next (s.setRegThenFlag x (s.reg y >>> 1) (lowBitFlag (s.reg y)))

/-- 8XY7 SUBN Vx, Vy (R190): Vy − Vx. -/
def execSubnReg (x y : Reg) (s : State) : Host.Outcome State Fault Refusal :=
  .next (s.setRegThenFlag x (s.reg y - s.reg x) (noBorrowFlag (s.reg y) (s.reg x)))

/-- 8XYE SHL Vx, Vy (R193, R192): shifts Vy. -/
def execShlReg (x y : Reg) (s : State) : Host.Outcome State Fault Refusal :=
  .next (s.setRegThenFlag x (s.reg y <<< 1) (highBitFlag (s.reg y)))

/-- CXNN RND Vx, nn (R195): one fresh byte of the host, masked. -/
def execRnd (x : Reg) (nn : Byte) (s : State) : Host.Outcome State Fault Refusal :=
  .next (s.takeDraw.setReg x (s.drawAnswer &&& nn))

end Sys2Proof.Machine
end

