-- ==== Sys2Proof/Machine/Control.lean ====
section
/-! DEFINITION. Control transfer (R150–R160). Every meaning runs after the fetch and advance of
R122, so `s.pc` is `a +16 2`. -/

namespace Sys2Proof.Machine

/-- A skip when the condition holds: `pc <- pc +16 2` (R150). -/
def State.skipIf (s : State) (c : Bool) : State := if c then s.setPc (s.pc + 2) else s

/-- 00EE RET (R151). -/
def execRet (s : State) : Host.Outcome State Fault Refusal :=
  .next (match s.pop with
    | none        => s.raiseIns .stackUnderflow .noInfo
    | some (w, t) => t.setPc w)

/-- 1NNN JP nnn (R152). -/
def execJp (nnn : Addr) (s : State) : Host.Outcome State Fault Refusal :=
  .next (s.setPc (zextAddr nnn))

/-- 2NNN CALL nnn (R153): the pushed value is `pc`, already `a +16 2`. -/
def execCall (nnn : Addr) (s : State) : Host.Outcome State Fault Refusal :=
  .next (if s.cfg.stackDepth ≤ s.sp then s.raiseIns .stackOverflow .noInfo
    else (s.push s.pc).setPc (zextAddr nnn))

/-- 3XNN SE Vx, nn (R154). -/
def execSeImm (x : Reg) (nn : Byte) (s : State) : Host.Outcome State Fault Refusal :=
  .next (s.skipIf (s.reg x == nn))

/-- 4XNN SNE Vx, nn (R155). -/
def execSneImm (x : Reg) (nn : Byte) (s : State) : Host.Outcome State Fault Refusal :=
  .next (s.skipIf (s.reg x != nn))

/-- 5XY0 SE Vx, Vy (R156). -/
def execSeReg (x y : Reg) (s : State) : Host.Outcome State Fault Refusal :=
  .next (s.skipIf (s.reg x == s.reg y))

/-- 9XY0 SNE Vx, Vy (R157). -/
def execSneReg (x y : Reg) (s : State) : Host.Outcome State Fault Refusal :=
  .next (s.skipIf (s.reg x != s.reg y))

/-- BNNN JP V0, nnn (R158). -/
def execJpV0 (nnn : Addr) (s : State) : Host.Outcome State Fault Refusal :=
  .next (s.setPc (s.offsetTarget nnn))

end Sys2Proof.Machine
end

