-- ==== Sys2Proof/Machine/Display.lean ====
section
/-! DEFINITION. The framebuffer compositor (R220–R228). -/

namespace Sys2Proof.Machine

/-- 00E0 CLS (R221). -/
def execCls (s : State) : Host.Outcome State Fault Refusal :=
  .next s.clearScreen.flushAndEndBatch.state

/-- DXYN DRW Vx, Vy, n (R222): the origin is sampled, then VF is zeroed, then the sprite is scanned
(R223). -/
def execDrw (x y : Reg) (n : BitVec 4) (s : State) : Host.Outcome State Fault Refusal :=
  .next ((drawRows (originColumn (s.reg x)) (originRow (s.reg y)) n.toNat 0
    (s.setReg VF 0)).andThen State.flushAndEndBatch).state

end Sys2Proof.Machine
end

