-- ==== Sys2Proof/Machine/IndexMemory.lean ====
section
/-! DEFINITION. Index register and memory instructions (R280–R286). -/

namespace Sys2Proof.Machine

/-- ANNN LD I, nnn (R280). -/
def execLdI (nnn : Addr) (s : State) : Host.Outcome State Fault Refusal :=
  .next (s.setI (zextAddr nnn))

/-- FX1E ADD I, Vx (R281): wraps at 16 bits, VF not written. -/
def execAddIVx (x : Reg) (s : State) : Host.Outcome State Fault Refusal :=
  .next (s.setI (s.i + zextByte (s.reg x)))

/-- FX29 LD F, Vx (R282). -/
def execLdFVx (x : Reg) (s : State) : Host.Outcome State Fault Refusal :=
  .next (s.setI (glyphAddress s.cfg (s.reg x)))

/-- FX33 LD B, Vx (R283). -/
def execLdBVx (x : Reg) (s : State) : Host.Outcome State Fault Refusal :=
  .next (storeBytes (bcdDigits (s.reg x)) s.i.toNat s).state

/-- FX55 LD [I], Vx (R285). -/
def execLdMemVx (x : Reg) (s : State) : Host.Outcome State Fault Refusal :=
  .next (dumpRegs (regsUpTo x) s).state

/-- FX65 LD Vx, [I] (R286). -/
def execLdVxMem (x : Reg) (s : State) : Host.Outcome State Fault Refusal :=
  .next (loadRegs (regsUpTo x) s).state

end Sys2Proof.Machine
end

