-- ==== Sys2Proof/Machine/KeysTimers.lean ====
section
/-! DEFINITION. Keypad and timer instructions (R250–R256). -/

namespace Sys2Proof.Machine

/-- EX9E SKP Vx (R251). -/
def execSkp (x : Reg) (s : State) : Host.Outcome State Fault Refusal :=
  .next (s.skipIf (s.keyDown (lowNibble (s.reg x))))

/-- EXA1 SKNP Vx (R252). -/
def execSknp (x : Reg) (s : State) : Host.Outcome State Fault Refusal :=
  .next (s.skipIf (!s.keyDown (lowNibble (s.reg x))))

/-- FX07 LD Vx, DT (R253). -/
def execLdVxDt (x : Reg) (s : State) : Host.Outcome State Fault Refusal :=
  .next (s.setReg x s.dt)

/-- FX0A LD Vx, K (R254): with no key found, pc goes back to this instruction. -/
def execLdVxK (x : Reg) (s : State) : Host.Outcome State Fault Refusal :=
  .next (match s.firstReleased with
    | some k => s.setReg x (keyByte k)
    | none   => s.setPc (s.pc - 2))

/-- FX15 LD DT, Vx (R255). -/
def execLdDtVx (x : Reg) (s : State) : Host.Outcome State Fault Refusal :=
  .next (s.setDt (s.reg x))

/-- FX18 LD ST, Vx (R256), with the audio interaction of R334 at a tone transition. -/
def execLdStVx (x : Reg) (s : State) : Host.Outcome State Fault Refusal :=
  .next (s.setSound (s.reg x) s.ins.addr s.ins.word).state

end Sys2Proof.Machine
end

