-- ==== Sys2Proof/Machine/Engine.lean ====
section
/-! DEFINITION. The fetch-decode-execute cycle (R122, R123), the frame-tick sequencer around it
(R127–R133), and the loader (R352). Machine/Step.lean only calls what stands here. -/

namespace Sys2Proof.Machine

/-! ## The cycle -/

/-- What fetching yields: the word, or the address that raised MemBounds. -/
inductive Fetched where
  | word (w : Word)
  | bounds (a : Nat)
  deriving DecidableEq, Repr

/-- The two fetch reads of R122, at `pc` and then at `pc + 1` (R65, R66). -/
def State.fetch (s : State) : Fetched :=
  match s.memRead s.pc.toNat with
  | none    => .bounds s.pc.toNat
  | some b0 =>
      match s.memRead (s.pc.toNat + 1) with
      | none    => .bounds (s.pc.toNat + 1)
      | some b1 => .word (wordOfBytes b0 b1)

/-- After fetch and decode, `pc <- a +16 2`, and Execute is given `a` and `w` (R122). -/
def State.advance (s : State) (w : Word) : State := { s with ins := ⟨s.pc, w⟩, pc := s.pc + 2 }

/-- `Cycle()` of R122. A fetch MemBounds is recorded with pc not advanced and the word 0 (R312); an
Unknown verdict raises UnknownOpcode after the advance (R123, R313). -/
def cycle (s : State) : Host.Outcome State Fault Refusal :=
  match s.fetch with
  | .bounds a => .next (s.raise .memBounds (.address a) s.pc 0)
  | .word w   =>
      match decodeWord s.cfg.lenientDecode w with
      | .unknown _ => .next ((s.advance w).raiseIns .unknownOpcode .noInfo)
      | .ok i      => exec i (s.advance w)

/-! ## The frame tick (R130), cut into its parts -/

/-- Another cycle runs in this batch: `slot < IPF and batch_end = 0` (R130; `halted = 0` is looked
at before). -/
def State.batchOpen (s : State) : Bool := decide (s.slot < s.cfg.ipf) && !s.batchEnd

/-- `slot <- slot + 1` after a cycle (R128, R130). -/
def State.countSlot (s : State) : State := { s with slot := s.slot + 1 }

/-- One cycle of the batch loop of R130. -/
def runSlot (s : State) : Host.Outcome State Fault Refusal :=
  match cycle s with
  | .next t    => .next t.countSlot
  | .fault r   => .fault r
  | .refused r => .refused r

/-- The timer step, if the configuration puts it at this place of the tick (R130). -/
def State.timerAt (s : State) (phase : TimerPhase) : Flow :=
  if s.cfg.timerPhase = phase then s.timerTick else .go s

/-- The part of R130 before the batch: `slot <- 0; batch_end <- 0`, and the timer step under
`BeforeBatch`. -/
def State.beginTick (s : State) : State :=
  ({ s with slot := 0, batchEnd := false, inTick := true }.timerAt .beforeBatch).state

/-- The end of a frame tick: "if quit = 1: the run ends" (R130, R133). -/
def State.closeTick (s : State) : State := { s with inTick := false, ended := s.quit }

/-- The part of R130 after the batch: the timer step under `AfterBatch`, then the Poll, unless an
audio failure has halted the CORE. -/
def State.endTick (s : State) : State :=
  ((s.timerAt .afterBatch).andThen (fun t => .go t.poll.closeTick)).state

/-! ## Loading -/

/-- Bytes written from address `a` up, through the loader port (R350 step 3). -/
def pokeBytes : List Byte → Nat → State → State
  | [], _, s      => s
  | b :: bs, a, s => pokeBytes bs (a + 1) (s.poke a b)

/-- Reset with a program (R350, R352): its bytes stand from 0x200 up; a program longer than 3584
bytes is refused and there is no run. -/
def loadProgram (cfg : Config) (program : List Byte) : Host.Outcome State Fault Refusal :=
  if program.length ≤ maxProgramLen then
    .next (pokeBytes program programBase (State.resetWith cfg))
  else .refused (.programTooLong program.length)

/-- A byte put at an address as the arbiter reduces it; nothing where it would raise MemBounds. -/
def State.place (s : State) (a : Nat) (b : Byte) : State := (s.memWrite a b).getD s

/-- The state with a batch running, in which the next step is a cycle: a tick is begun if none runs,
or if its batch is over, and a stopped CORE is started. -/
def State.readyToFetch (s : State) : State :=
  if s.inTick && s.batchOpen && !s.halted && !s.ended then s
  else { s with slot := 0, batchEnd := false, inTick := true, halted := false, ended := false }

/-- The two bytes of an instruction put where the next cycle fetches. -/
def State.placeWord (s : State) (b0 b1 : Byte) : State :=
  (s.readyToFetch.place s.pc.toNat b0).place (s.pc.toNat + 1) b1

end Sys2Proof.Machine
end

