-- ==== Sys2Proof/Machine/Step.lean ====
section
/-! DEFINITION. One step of the machine: a cycle of the running batch, or the part of a frame tick
(R130) before or after the batch. -/

namespace Sys2Proof.Machine

/-- One step. A halted CORE, and one whose run has ended by quit, take none (R125). Between frame
ticks the step is the arrival of the next tick and what R130 does before the batch; in a tick whose
batch is open it is one cycle; in a tick whose batch is over it is what R130 does after the batch. -/
def step (s : State) : Host.Outcome State Fault Refusal :=
  if s.halted then .fault .coreHalted
  else if s.ended then .fault .runEnded
  else if s.inTick then
    if s.batchOpen then runSlot s else .next s.endTick
  else .next s.beginTick

/-- The state in which the very next step fetches and runs the table word `w`: its two bytes stand
at `pc`, and a batch is running. -/
def State.withFetchWord (s : State) (nbits w : Nat) : State :=
  s.placeWord (tableBytes nbits w).1 (tableBytes nbits w).2

end Sys2Proof.Machine
end

