-- ==== Sys2Proof/WellFormed.lean ====
section
/-! DEFINITION. Well-formedness checks. An `Instr` carries its operand ranges in its types, so the
check on instructions stands where raw numbers come in: R105's operand ranges, on an operand line
before it becomes an `Instr`. Beside it, the checks on a configuration (R7) and on a program to be
loaded (R352). -/

namespace Sys2Proof

/-- The operands of one source line as raw numbers; a line leaves the ones it has not at 0. -/
structure RawOperands where
  x   : Nat := 0
  y   : Nat := 0
  n   : Nat := 0
  nn  : Nat := 0
  nnn : Nat := 0
  deriving DecidableEq, Repr

/-- R105: "nnn must be < 0x1000, nn < 0x100, n < 0x10, or the assembler rejects the line"; a
register is one of V0–VF. -/
def RawOperands.wellFormed (o : RawOperands) : Bool :=
  decide (o.x < 16) && decide (o.y < 16) && decide (o.n < 0x10) && decide (o.nn < 0x100) &&
  decide (o.nnn < 0x1000)

/-- The operands of an instruction as raw numbers (the operand columns of R93 and R95). -/
def Instr.operands : Instr → RawOperands
  | .cls | .ret => {}
  | .jp nnn | .call nnn | .ldI nnn | .jpV0 nnn => { nnn := nnn.toNat }
  | .seImm x nn | .sneImm x nn | .ldImm x nn | .addImm x nn | .rnd x nn =>
      { x := x, nn := nn.toNat }
  | .seReg x y | .ldReg x y | .orReg x y | .andReg x y | .xorReg x y | .addReg x y
  | .subReg x y | .shrReg x y | .subnReg x y | .shlReg x y | .sneReg x y => { x := x, y := y }
  | .drw x y n => { x := x, y := y, n := n.toNat }
  | .skp x | .sknp x | .ldVxDt x | .ldVxK x | .ldDtVx x | .ldStVx x | .addIVx x | .ldFVx x
  | .ldBVx x | .ldMemVx x | .ldVxMem x => { x := x }

/-- The instruction a source line stands for (R105): the row by its mnemonic, the operands by
value; none for a name that is no row. -/
def lineOf (mnemonic : String) (o : RawOperands) : Option Instr :=
  let x := Fin.ofNat 16 o.x
  let y := Fin.ofNat 16 o.y
  let n := BitVec.ofNat 4 o.n
  let nn := BitVec.ofNat 8 o.nn
  let nnn := BitVec.ofNat 12 o.nnn
  match mnemonic with
  | "CLS"           => some .cls
  | "RET"           => some .ret
  | "JP_nnn"        => some (.jp nnn)
  | "CALL_nnn"      => some (.call nnn)
  | "SE_Vx__nn"     => some (.seImm x nn)
  | "SNE_Vx__nn"    => some (.sneImm x nn)
  | "SE_Vx__Vy"     => some (.seReg x y)
  | "LD_Vx__nn"     => some (.ldImm x nn)
  | "ADD_Vx__nn"    => some (.addImm x nn)
  | "LD_Vx__Vy"     => some (.ldReg x y)
  | "OR_Vx__Vy"     => some (.orReg x y)
  | "AND_Vx__Vy"    => some (.andReg x y)
  | "XOR_Vx__Vy"    => some (.xorReg x y)
  | "ADD_Vx__Vy"    => some (.addReg x y)
  | "SUB_Vx__Vy"    => some (.subReg x y)
  | "SHR_Vx__Vy"    => some (.shrReg x y)
  | "SUBN_Vx__Vy"   => some (.subnReg x y)
  | "SHL_Vx__Vy"    => some (.shlReg x y)
  | "SNE_Vx__Vy"    => some (.sneReg x y)
  | "LD_I__nnn"     => some (.ldI nnn)
  | "JP_V0__nnn"    => some (.jpV0 nnn)
  | "RND_Vx__nn"    => some (.rnd x nn)
  | "DRW_Vx__Vy__n" => some (.drw x y n)
  | "SKP_Vx"        => some (.skp x)
  | "SKNP_Vx"       => some (.sknp x)
  | "LD_Vx__DT"     => some (.ldVxDt x)
  | "LD_Vx__K"      => some (.ldVxK x)
  | "LD_DT__Vx"     => some (.ldDtVx x)
  | "LD_ST__Vx"     => some (.ldStVx x)
  | "ADD_I__Vx"     => some (.addIVx x)
  | "LD_F__Vx"      => some (.ldFVx x)
  | "LD_B__Vx"      => some (.ldBVx x)
  | "LD__I___Vx"    => some (.ldMemVx x)
  | "LD_Vx___I"     => some (.ldVxMem x)
  | _               => none

/-- R105: a line with an operand out of range is rejected. -/
def assemble (mnemonic : String) (o : RawOperands) : Option Instr :=
  if o.wellFormed then lineOf mnemonic o else none

/-- A configuration that fits R7: 80 font bytes that lie inside the memory, and a wait-key range
inside the 16 logical keys. -/
def Config.wellFormed (c : Config) : Bool :=
  decide (c.fontData.length = fontLen) && decide (c.fontBase + fontLen ≤ memSize) &&
  decide (c.waitKeyMax < 16)

/-- R352: "A program of L bytes is accepted when L ≤ 3584". -/
def programFits (program : List Byte) : Bool := decide (program.length ≤ maxProgramLen)

end Sys2Proof
end

