-- ==== Sys2Proof/Safety.lean ====
section
/-! DEFINITION. The terms in which claims speak of the machine: the invariant of its states, the
frames "only this changed", and runs. -/

namespace Sys2Proof.Machine

/-- What every step keeps (each field cites the rule it follows). -/
structure State.Inv (s : State) : Prop where
  /-- memory is in canonical form inside the 4096 bytes (R60) -/
  memCanonical  : Memory.wf s.cfg s.mem
  /-- `0 ≤ sp ≤ STACK_DEPTH` (R28) -/
  stackBounded  : s.stack.length ≤ s.cfg.stackDepth
  /-- `slot` counts 0..`IPF` (R37) -/
  slotBounded   : s.slot ≤ s.cfg.ipf
  /-- a fault record stands exactly in the halted state (R38, R42, R312) -/
  faultRecorded : s.halted = true ↔ s.fault.kind ≠ .noFault
  /-- a run that has ended was asked to quit, and no tick runs any more (R133) -/
  endedByQuit   : s.ended = true → s.quit = true ∧ s.inTick = false
  /-- the last frame sent is the framebuffer, unless a fault stopped a draw (R220, R332) -/
  frameShown    : s.halted = false → s.out.rows = s.fb

/-- The CORE can take a step: it is not halted and its run has not ended (R125). -/
def State.running (s : State) : Prop := s.halted = false ∧ s.ended = false

/-- In the running batch of a frame tick: the next step is a cycle (R130). -/
def State.inBatch (s : State) : Prop := s.running ∧ s.inTick = true ∧ s.batchOpen = true

/-- Registers other than those of `ws` hold what they held. -/
def KeepsRegsBut (ws : List Reg) (s t : State) : Prop := ∀ r, r ∉ ws → t.reg r = s.reg r

/-- Every byte of memory outside the addresses of `as` reads as it read. -/
def KeepsBytesBut (as : List Nat) (s t : State) : Prop := ∀ a, a ∉ as → t.peek a = s.peek a

/-- Only the registers of `ws` changed: no other register, no byte of memory, no other field. -/
def OnlyRegs (ws : List Reg) (s t : State) : Prop :=
  KeepsRegsBut ws s t ∧ KeepsBytesBut [] s t ∧ t = { s with v := t.v }

/-- Only `pc` changed: no register, no byte of memory, no other field. -/
def OnlyPc (s t : State) : Prop :=
  KeepsRegsBut [] s t ∧ KeepsBytesBut [] s t ∧ t = { s with pc := t.pc }

/-- Only `I` changed: no register, no byte of memory, no other field. -/
def OnlyIndex (s t : State) : Prop :=
  KeepsRegsBut [] s t ∧ KeepsBytesBut [] s t ∧ t = { s with i := t.i }

/-- The address FX55 and FX65 reach for register k: `I` as it has advanced by k (R284). -/
def State.regAddr (s : State) (k : Reg) : Nat := (s.i + BitVec.ofNat 16 k.val).toNat

/-- The sprite byte of row k, `memory[I + k]` (R227). -/
def State.spriteByte (s : State) (k : Nat) : Byte := (s.memRead (s.i.toNat + k)).getD 0

/-- Every sprite byte that is read can be read: those of the rows above the bottom edge (R227). -/
def State.spriteReadable (s : State) (y : Reg) (n : BitVec 4) : Prop :=
  ∀ k < n.toNat, originRow (s.reg y) + k < 32 → s.memRead (s.i.toNat + k) ≠ none

/-- Whether the sprite of `n` rows at the origin of Vx and Vy has a set bit on pixel (r, c): the
sprite's picture on the screen, clipped at the right and bottom edges (R222–R227). -/
def State.spriteBit (s : State) (x y : Reg) (n : Nat) (r : RowIx) (c : ColIx) : Bool :=
  decide (originRow (s.reg y) ≤ r.val ∧ r.val < originRow (s.reg y) + n ∧
    originColumn (s.reg x) ≤ c.val ∧ c.val < originColumn (s.reg x) + 8) &&
  (s.spriteByte (r.val - originRow (s.reg y))).getLsbD (7 - (c.val - originColumn (s.reg x)))

/-- What drawing the first `n` sprite rows leaves (R225): each pixel XORed with the sprite's bit, VF
1 exactly if a set bit met a set pixel and else 0, every other register as it was. -/
def State.Drawn (s t : State) (x y : Reg) (n : Nat) : Prop :=
  (∀ r c, t.pixel r c = (s.pixel r c ^^ s.spriteBit x y n r c)) ∧
  (t.reg VF = 1 ↔ ∃ r c, s.spriteBit x y n r c = true ∧ s.pixel r c = true) ∧
  (t.reg VF = 0 ∨ t.reg VF = 1) ∧
  KeepsRegsBut [VF] s t

/-- The fault record of the instruction being executed (R312). -/
def State.insFault (s : State) (kind : FaultKind) (info : FaultInfo) : FaultRecord :=
  ⟨kind, s.ins.addr, s.ins.word, info⟩

/-- `n` steps, each answering a next state, lead from one state to another. -/
inductive Steps : Nat → State → State → Prop where
  | zero (s : State) : Steps 0 s s
  | succ {n : Nat} {s t u : State} : Steps n s t → step t = .next u → Steps (n + 1) s u

end Sys2Proof.Machine
end

