-- ==== Sys2Proof/Certificates/Slice0/Obligations.lean ====
section
/-! DEFINITION. The statements for the provers. Each docstring names the rules of spec/ it
formalises. A statement of an instruction has three parts: the word that the spec's encoding gives
decodes to it; `exec` answers a next state with the results the rule gives; and its frame, what it
leaves unchanged. `exec` runs after the advance of R122, so `s.pc` is the address of the next
instruction there and `s.ins` holds the instruction's own address and word. -/

open Sys2Proof Sys2Proof.Machine

/-! ## Encoding -/

/-- Words written out from the encodings of R95, and from the decode vectors of 95_test_vectors.md
(W1, DC1–DC13), decode to what the spec says they are. -/
def Obligations.WrittenOutWordsDecode : Prop :=
  decodeWord false 0x00E0 = .ok .cls ∧
  decodeWord false 0x00EE = .ok .ret ∧
  decodeWord false 0x1234 = .ok (.jp 0x234) ∧
  decodeWord false 0x3412 = .ok (.seImm 4 0x12) ∧
  decodeWord false 0x6AFF = .ok (.ldImm 0xA 0xFF) ∧
  decodeWord false 0x8126 = .ok (.shrReg 1 2) ∧
  decodeWord false 0xA2F0 = .ok (.ldI 0x2F0) ∧
  decodeWord false 0xD12A = .ok (.drw 1 2 0xA) ∧
  decodeWord false 0xE19E = .ok (.skp 1) ∧
  decodeWord false 0xF165 = .ok (.ldVxMem 1) ∧
  decodeWord false 0x0000 = .unknown .machineCall ∧
  decodeWord false 0x01E0 = .unknown .machineCall ∧
  decodeWord true 0x01E0 = .ok .cls ∧
  decodeWord false 0x5121 = .unknown .skipEqualNibble ∧
  decodeWord true 0x5121 = .ok (.seReg 1 2) ∧
  decodeWord false 0x8018 = .unknown .aluSubop ∧
  decodeWord false 0xE0A0 = .unknown .keySubop ∧
  decodeWord false 0xFFFF = .unknown .miscSubop

/-- Decoding the word of an instruction gives it back, with every operand at every value, under the
strict and the lenient decoder. -/
def Obligations.DecodeGivesBackEveryEncodedInstruction : Prop :=
  ∀ (lenient : Bool) (i : Instr), decodeWord lenient (encode i) = .ok i

/-- Under the strict decoder a word that decodes is the word of its instruction: no two words stand
for one instruction, so no bit of a word is ignored (R96). -/
def Obligations.StrictDecodeIgnoresNoBit : Prop :=
  ∀ (w : Word) (i : Instr), decodeWord false w = .ok i → encode i = w

/-- The decode procedure of R96 selects exactly as the opcode map of R95 does: the map has 34 rows,
no word matches two, and a word matches a row exactly if it decodes to an instruction of that row
(so a word that matches no row is Unknown). -/
def Obligations.DecodeFollowsTheOpcodeMap : Prop :=
  opcodeMap.length = 34 ∧
  (∀ w : Word, ∀ r ∈ opcodeMap, ∀ r' ∈ opcodeMap,
    r.selects w = true → r'.selects w = true → r = r') ∧
  (∀ w : Word, ∀ r ∈ opcodeMap,
    r.selects w = true ↔ ∃ i, decodeWord false w = .ok i ∧ rowOf i = r)

/-- The illegal words of R97 class by class, under the strict decoder. -/
def Obligations.IllegalWordsByClass : Prop :=
  ∀ w : Word,
    (decodeWord false w = .unknown .machineCall ↔
      fieldOp w = 0x0 ∧ w ≠ 0x00E0 ∧ w ≠ 0x00EE) ∧
    (decodeWord false w = .unknown .skipEqualNibble ↔ fieldOp w = 0x5 ∧ fieldN w ≠ 0) ∧
    (decodeWord false w = .unknown .aluSubop ↔
      fieldOp w = 0x8 ∧ fieldN w ∈ [0x8, 0x9, 0xA, 0xB, 0xC, 0xD, 0xF]) ∧
    (decodeWord false w = .unknown .skipNotEqualNibble ↔ fieldOp w = 0x9 ∧ fieldN w ≠ 0) ∧
    (decodeWord false w = .unknown .keySubop ↔
      fieldOp w = 0xE ∧ fieldNN w ∉ [0x9E, 0xA1]) ∧
    (decodeWord false w = .unknown .miscSubop ↔
      fieldOp w = 0xF ∧ fieldNN w ∉ [0x07, 0x0A, 0x15, 0x18, 0x1E, 0x29, 0x33, 0x55, 0x65])

/-- `LENIENT_DECODE` (R98; the spec's decision D10): with it `0X E0` is CLS, `0X EE` RET, `5XYn` SE
Vx, Vy and `9XYn` SNE Vx, Vy for every X and n; without it those words are Unknown but for X = 0 and
n = 0; every other word decodes the same under both. -/
def Obligations.LenientDecodeAddsOnlyItsWords : Prop :=
  (∀ x : BitVec 4,
    decodeWord true (0x0#4 ++ x ++ 0xE0#8) = .ok .cls ∧
    decodeWord true (0x0#4 ++ x ++ 0xEE#8) = .ok .ret ∧
    (x ≠ 0 → decodeWord false (0x0#4 ++ x ++ 0xE0#8) = .unknown .machineCall ∧
      decodeWord false (0x0#4 ++ x ++ 0xEE#8) = .unknown .machineCall)) ∧
  (∀ (x y : Reg) (n : BitVec 4),
    decodeWord true (0x5#4 ++ BitVec.ofNat 4 x.val ++ BitVec.ofNat 4 y.val ++ n) = .ok (.seReg x y) ∧
    decodeWord true (0x9#4 ++ BitVec.ofNat 4 x.val ++ BitVec.ofNat 4 y.val ++ n) = .ok (.sneReg x y) ∧
    (n ≠ 0 →
      decodeWord false
            (0x5#4 ++ BitVec.ofNat 4 x.val ++ BitVec.ofNat 4 y.val ++ n) =
        .unknown .skipEqualNibble ∧
      decodeWord false
            (0x9#4 ++ BitVec.ofNat 4 x.val ++ BitVec.ofNat 4 y.val ++ n) =
        .unknown .skipNotEqualNibble)) ∧
  (∀ w : Word, fieldOp w ∉ [0x5, 0x9] → ¬ (fieldOp w = 0x0 ∧ fieldNN w ∈ [0xE0, 0xEE]) →
    decodeWord true w = decodeWord false w)

/-- R105: an instruction's own mnemonic and operands assemble to it, and a line with an operand out
of range is rejected whatever its mnemonic. -/
def Obligations.AssemblerAcceptsExactlyLinesInRange : Prop :=
  (∀ i : Instr, assemble (rowOf i).mnemonic i.operands = some i) ∧
  (∀ (m : String) (o : RawOperands),
    16 ≤ o.x ∨ 16 ≤ o.y ∨ 0x10 ≤ o.n ∨ 0x100 ≤ o.nn ∨ 0x1000 ≤ o.nnn → assemble m o = none)

/-! ## The cycle and the step -/

/-- R122, R123: in a running batch, when the two bytes at `pc` and `pc + 1` decode to an
instruction, the step is `exec` of it, with `a` and `w` latched and pc advanced by 2, and one slot
is counted. The slot is counted also where the instruction faults (the model's reading, log entry
18). -/
def Obligations.StepRunsTheDecodedInstruction : Prop :=
  ∀ (s : State) (b0 b1 : Byte) (i : Instr), s.inBatch →
    s.memRead s.pc.toNat = some b0 → s.memRead (s.pc.toNat + 1) = some b1 →
    decodeWord s.cfg.lenientDecode (b0 ++ b1) = .ok i →
    ∃ t, exec i { s with ins := ⟨s.pc, b0 ++ b1⟩, pc := s.pc + 2 } = .next t ∧
      step s = .next { t with slot := t.slot + 1 }

/-- R313, with R123: an illegal word halts the CORE with UnknownOpcode (code 1 of R311), recorded
with the word and its address, after the pc advance. Beside the record and the halt only the slot is
counted (R128, R130; that it is counted for a cycle that faults is the model's reading, log entry
18); that the record has no info is the model's too (log entry 13). -/
def Obligations.UnknownWordHalts : Prop :=
  ∀ (s : State) (b0 b1 : Byte) (why : Illegal), s.inBatch →
    s.memRead s.pc.toNat = some b0 → s.memRead (s.pc.toNat + 1) = some b1 →
    decodeWord s.cfg.lenientDecode (b0 ++ b1) = .unknown why →
    ∃ t, step s = .next t ∧ t.fault.kind.code = 1 ∧
      t = { s with
        ins := ⟨s.pc, b0 ++ b1⟩, pc := s.pc + 2, halted := true,
        fault := ⟨.unknownOpcode, s.pc, b0 ++ b1, .noInfo⟩, slot := s.slot + 1 }

/-- R64 and R122 on fetch (the spec's decision D2): with `Wrap` the two bytes come from `pc` and `pc
+ 1` mod 4096 and fetching never faults; with `Fault` the first fetch address above 0xFFF raises
MemBounds with pc not advanced, and R312 records the word 0. The slot is counted for that cycle too
(R128, R130; the model's reading, log entry 18). -/
def Obligations.FetchReducesItsAddresses : Prop :=
  ∀ s : State, s.inBatch →
    (s.cfg.addrPolicy = .wrap →
      s.memRead s.pc.toNat = some (s.peek (s.pc.toNat % 4096)) ∧
      s.memRead (s.pc.toNat + 1) = some (s.peek ((s.pc.toNat + 1) % 4096))) ∧
    (s.cfg.addrPolicy = .fault → 0xFFF ≤ s.pc.toNat →
      step s = .next { s with
        halted := true, slot := s.slot + 1,
        fault := ⟨.memBounds, s.pc, 0,
          .address (if s.pc.toNat = 0xFFF then 0x1000 else s.pc.toNat)⟩ })

/-- R125: "the engine takes no cycle and no frame tick is run" once halted, and none after the run
has ended by quit. -/
def Obligations.StoppedCoreTakesNoStep : Prop :=
  ∀ s : State,
    (s.halted = true → step s = .fault .coreHalted) ∧
    (s.halted = false → s.ended = true → step s = .fault .runEnded)

/-- Every state that is neither halted nor ended has a next state, so the model refuses and faults
nowhere else (R121: a cycle ends either in a new state or in the halted state). That this holds also
between two ticks is the model's choice: in it the next tick always arrives (log entry 2), while by
R330 a host that never delivers a tick leaves the CORE with no step. -/
def Obligations.RunningCoreAlwaysSteps : Prop :=
  ∀ s : State, s.running → ∃ t, step s = .next t

/-- R130 before the batch (the spec's decision D12): a tick starts with slot 0 and `batch_end` 0;
under `AfterBatch` nothing else changes, under `BeforeBatch` both timers count down unless an audio
failure halts the CORE. The steps of a tick are those of log entry 2. -/
def Obligations.TickBeginsABatch : Prop :=
  ∀ s : State, s.running → s.inTick = false →
    ∃ t, step s = .next t ∧ t.slot = 0 ∧ t.batchEnd = false ∧ t.inTick = true ∧
      KeepsRegsBut [] s t ∧ KeepsBytesBut [] s t ∧
      (s.cfg.timerPhase = .afterBatch →
        t = { s with slot := 0, batchEnd := false, inTick := true }) ∧
      (s.cfg.timerPhase = .beforeBatch →
        t.dt.toNat = s.dt.toNat - 1 ∧ t.st.toNat = s.st.toNat - 1 ∧
        (t.halted = true ↔ s.st = 1 ∧ s.audioAnswer = false) ∧
        t = { s with slot := 0, batchEnd := false, inTick := true, dt := t.dt, st := t.st,
                     host := t.host, halted := t.halted, fault := t.fault })

/-- R130 after the batch, R321, R333, R133 (the spec's decisions D12, D23): when the batch is over
and no audio failure comes, the step counts both timers down (under `AfterBatch`), takes the host's
poll report for KD and KR, latches quit, and ends the tick, and the run if quit is set; nothing else
changes. The steps of a tick are those of log entry 2. -/
def Obligations.TickEndCountsDownPollsAndMayEndTheRun : Prop :=
  ∀ s : State, s.running → s.inTick = true → s.batchOpen = false →
    (s.cfg.timerPhase = .afterBatch → s.st = 1 → s.audioAnswer = true) →
    ∃ t r, step s = .next t ∧
      (∀ p ps, s.host.polls = p :: ps → r = p ∧ t.host.polls = ps) ∧
      t.kd = r.kd ∧ t.kr = r.kr ∧ t.quit = (s.quit || r.quitReq) ∧
      t.ended = t.quit ∧ t.inTick = false ∧
      (s.cfg.timerPhase = .afterBatch →
        t.dt.toNat = s.dt.toNat - 1 ∧ t.st.toNat = s.st.toNat - 1) ∧
      (s.cfg.timerPhase = .beforeBatch → t.dt = s.dt ∧ t.st = s.st) ∧
      KeepsRegsBut [] s t ∧ KeepsBytesBut [] s t ∧
      t = { s with dt := t.dt, st := t.st, kd := t.kd, kr := t.kr, quit := t.quit,
                   ended := t.ended, inTick := false, host := t.host }

/-- R317 and R130 at the timer step, under both timer phases (the steps of a tick are those of log
entry 2): when the tone falls there and the audio collaborator fails, the CORE halts with HostIo
after the new timer values, the word recorded is 0 (R312), and neither a cycle nor a poll follows.
The recorded address is the model's free value (log entry 4). -/
def Obligations.AudioFailureAtTheTimerStepHalts : Prop :=
  ∀ s : State, s.running → s.st = 1 → s.audioAnswer = false →
    (s.cfg.timerPhase = .afterBatch → s.inTick = true → s.batchOpen = false →
      ∃ t a, step s = .next t ∧ t.halted = true ∧ t.fault = ⟨.hostIo, a, 0, .audio⟩ ∧
        t.st = 0 ∧ t.tone = false ∧ t.dt.toNat = s.dt.toNat - 1 ∧
        KeepsRegsBut [] s t ∧ KeepsBytesBut [] s t ∧
        t = { s with dt := t.dt, st := 0, host := t.host, halted := true, fault := t.fault }) ∧
    (s.cfg.timerPhase = .beforeBatch → s.inTick = false →
      ∃ t a, step s = .next t ∧ t.halted = true ∧ t.fault = ⟨.hostIo, a, 0, .audio⟩ ∧
        t.st = 0 ∧ t.tone = false ∧ t.dt.toNat = s.dt.toNat - 1 ∧
        KeepsRegsBut [] s t ∧ KeepsBytesBut [] s t ∧
        t = { s with slot := 0, batchEnd := false, inTick := true, dt := t.dt, st := 0,
                     host := t.host, halted := true, fault := t.fault })

/-- R129: CLS and DRW that complete end the batch and no other instruction does; once a batch has
ended no cycle runs in it. That then the very next step leaves the tick, or halts at its timer step,
is R130 with the model's cut of a tick into steps (log entry 2). -/
def Obligations.OnlyClearAndDrawEndABatch : Prop :=
  (∀ (i : Instr) (s t : State), exec i s = .next t →
    t.batchEnd = s.batchEnd ∨
      (t.batchEnd = true ∧ (i = .cls ∨ ∃ x y n, i = .drw x y n))) ∧
  (∀ (i : Instr) (s t : State), (i = .cls ∨ ∃ x y n, i = .drw x y n) →
    exec i s = .next t → t.halted = false → t.batchEnd = true) ∧
  (∀ s t : State, s.running → s.inTick = true → s.batchEnd = true → step s = .next t →
    t.pc = s.pc ∧ t.ins = s.ins ∧ (t.inTick = false ∨ t.halted = true))

/-- R127: a batch has at most `IPF` cycles: from a state in a batch, at most as many steps as slots
are left lead out of it. That a cycle is one step is the model's cut of a tick (log entry 2). -/
def Obligations.BatchHasAtMostIpfCycles : Prop :=
  ∀ s : State, s.inBatch →
    ∃ n t, n ≤ s.cfg.ipf - s.slot ∧ Steps n s t ∧ ¬ t.inBatch

/-- R130, R132: every frame tick runs to completion: within one step more than the slots left it is
over, or the CORE is halted. The bound counts steps as the model cuts a tick into them, one for each
cycle and one for the whole part after the batch (log entry 2, the model's choice). -/
def Obligations.EveryTickCompletes : Prop :=
  ∀ s : State, s.running → s.inTick = true →
    ∃ n t, n ≤ s.cfg.ipf - s.slot + 1 ∧ Steps n s t ∧ (t.inTick = false ∨ t.halted = true)

/-- R134: a run ends in exactly one of two ways, FAULT with a fault record whose kind carries its
code of R311 (the spec's decision D17) and `run_end` = 2, or QUIT at the end of a frame tick with
`quit` = 1 and `run_end` = 1. That the end of the tick is one step is log entry 2. -/
def Obligations.RunEndsByQuitOrFault : Prop :=
  ∀ s t : State, s.running → step s = .next t → ¬ t.running →
    (t.halted = true ∧ t.ended = false ∧ t.runEnd = 2 ∧
      (t.fault.kind, t.fault.kind.code) ∈ [(FaultKind.unknownOpcode, 1#3),
        (.stackUnderflow, 2#3), (.stackOverflow, 3#3), (.memBounds, 4#3), (.hostIo, 5#3)]) ∨
    (t.halted = false ∧ t.ended = true ∧ t.quit = true ∧ s.inTick = true ∧
      s.batchOpen = false ∧ t.inTick = false ∧ t.runEnd = 1)

/-! ## Invariants and rules of the whole machine -/

/-- Every step keeps the invariant of the machine's states: memory canonical and inside 4096 bytes,
stack and slot bounded, a fault record exactly when halted, a run ended only by quit, the last frame
sent equal to the framebuffer. -/
def Obligations.StepKeepsTheInvariant : Prop :=
  ∀ s t : State, s.Inv → step s = .next t → t.Inv

/-- The invariant holds at reset, for every configuration and every program that loads. Its part
about the frame sent, before any frame is sent, rests on the model's reset value of the output frame
(blank, log entry 8): the spec gives none. -/
def Obligations.LoadedResetMeetsTheInvariant : Prop :=
  ∀ (cfg : Config) (program : List Byte) (s : State),
    loadProgram cfg program = .next s → s.Inv

/-- R35: once quit is set it is never cleared. -/
def Obligations.QuitIsNeverCleared : Prop :=
  ∀ s t : State, step s = .next t → s.quit = true → t.quit = true

/-- No instruction but FX33 and FX55 writes a byte of memory (R61: memory is written by FX33 and
FX55, and by the loader at reset). -/
def Obligations.OnlyBcdAndDumpWriteMemory : Prop :=
  ∀ (i : Instr) (s t : State), exec i s = .next t →
    (∀ x, i ≠ .ldBVx x) → (∀ x, i ≠ .ldMemVx x) → KeepsBytesBut [] s t

/-- R28: no instruction but 2NNN and 00EE touches the call stack. -/
def Obligations.OnlyCallAndReturnTouchTheStack : Prop :=
  ∀ (i : Instr) (s t : State), exec i s = .next t →
    i ≠ .ret → (∀ nnn, i ≠ .call nnn) → t.stack = s.stack

/-- R32, R220, R332: the framebuffer is changed, and a frame is sent, by CLS and DRW only. -/
def Obligations.OnlyClearAndDrawTouchTheFrame : Prop :=
  ∀ (i : Instr) (s t : State), exec i s = .next t →
    i ≠ .cls → (∀ x y n, i ≠ .drw x y n) →
    (∀ r c, t.pixel r c = s.pixel r c) ∧ t.out = s.out

/-- R26: `I` is written by ANNN, FX1E, FX29, FX55 and FX65 only. -/
def Obligations.OnlyFiveInstructionsWriteTheIndex : Prop :=
  ∀ (i : Instr) (s t : State), exec i s = .next t → t.i ≠ s.i →
    (∃ nnn, i = .ldI nnn) ∨ (∃ x, i = .addIVx x) ∨ (∃ x, i = .ldFVx x) ∨
    (∃ x, i = .ldMemVx x) ∨ (∃ x, i = .ldVxMem x)

/-- R24 (and the spec's decision D15 for FX1E): VF changes only by an instruction that writes it as
a flag, by one whose destination register is VF, or by FX65 with x = 0xF. -/
def Obligations.OnlyListedInstructionsWriteTheFlag : Prop :=
  ∀ (i : Instr) (s t : State), exec i s = .next t → t.reg VF ≠ s.reg VF →
    (∃ x y, i ∈ [.orReg x y, .andReg x y, .xorReg x y, .addReg x y, .subReg x y, .subnReg x y,
      .shrReg x y, .shlReg x y]) ∨
    (∃ x y n, i = .drw x y n) ∨
    (∃ nn, i ∈ [.ldImm VF nn, .addImm VF nn, .rnd VF nn]) ∨
    (∃ y, i = .ldReg VF y) ∨
    i ∈ [.ldVxDt VF, .ldVxK VF, .ldVxMem VF]

/-- R126, R131: within a batch DT changes only by FX15 and ST only by FX18, and KD, KR and quit
change only at the Flush of CLS and DRW, which end the batch. -/
def Obligations.TimersAndKeysAreConstantInABatch : Prop :=
  ∀ (i : Instr) (s t : State), exec i s = .next t →
    ((∀ x, i ≠ .ldDtVx x) → t.dt = s.dt) ∧
    ((∀ x, i ≠ .ldStVx x) → t.st = s.st) ∧
    (i ≠ .cls → (∀ x y n, i ≠ .drw x y n) → t.kd = s.kd ∧ t.kr = s.kr ∧ t.quit = s.quit)

/-- The "raised by" column and the codes of R311 (the spec's decisions D2, D4, D16, D17): an
instruction halts the CORE only as RET with an empty stack (code 2), CALL with a full one (3), CLS
or DRW whose frame the display refuses (5), FX18 at a tone transition the audio refuses (5), or,
under `MEM_ADDR_POLICY = Fault` alone, a memory instruction at an address above 0xFFF (4). That the
record of a stack fault has no info is the model's (log entry 13). -/
def Obligations.InstructionsHaltOnlyAsListed : Prop :=
  ∀ (i : Instr) (s t : State), s.halted = false → exec i s = .next t → t.halted = true →
    (i = .ret ∧ s.stack = [] ∧ t.fault = s.insFault .stackUnderflow .noInfo ∧
      t.fault.kind.code = 2) ∨
    ((∃ nnn, i = .call nnn) ∧ s.cfg.stackDepth ≤ s.sp ∧
      t.fault = s.insFault .stackOverflow .noInfo ∧ t.fault.kind.code = 3) ∨
    ((i = .cls ∨ ∃ x y n, i = .drw x y n) ∧ s.flushAnswer.ok = false ∧
      t.fault = s.insFault .hostIo .display ∧ t.fault.kind.code = 5) ∨
    ((∃ x, i = .ldStVx x ∧ ¬ (s.reg x = 0 ↔ s.st = 0)) ∧ s.audioAnswer = false ∧
      t.fault = s.insFault .hostIo .audio ∧ t.fault.kind.code = 5) ∨
    (((∃ x y n, i = .drw x y n) ∨ ∃ x, i ∈ [.ldBVx x, .ldMemVx x, .ldVxMem x]) ∧
      s.cfg.addrPolicy = .fault ∧
      ∃ a, 0xFFF < a ∧ t.fault = s.insFault .memBounds (.address a) ∧ t.fault.kind.code = 4)

/-- R76, R332: the display is write-only: what has been sent to it changes nothing the machine does
but what has been sent. -/
def Obligations.FramesSentAreNeverReadBack : Prop :=
  ∀ (s t : State) (o : DisplayOut), step s = .next t →
    ∃ t', step { s with out := o } = .next t' ∧ { t' with out := t.out } = t

/-! ## Reset and memory -/

/-- R42, R44 and R352, with the default configuration: a program of at most 3584 bytes loads, a
longer one is refused; after the load every register, timer and key set is 0, pc is 0x200, the stack
and the screen are empty, and memory holds the program from 0x200, the 80 glyph bytes of R44,
written out here, from 0x050 and 0 elsewhere. The reset of I, the screen, the key sets, quit, slot,
batch_end, halted and the unnamed memory bytes, and the font's place and bytes, are the spec's
decisions D5–D9, D12 and D16, and the refusal D25. -/
def Obligations.ResetLoadsProgramAndFont : Prop :=
  ∀ program : List Byte,
    (3584 < program.length →
      loadProgram Config.default program = .refused (.programTooLong program.length)) ∧
    (program.length ≤ 3584 →
      ∃ s, loadProgram Config.default program = .next s ∧
        (∀ r, s.reg r = 0) ∧ s.i = 0 ∧ s.pc = 0x200 ∧ s.stack = [] ∧ s.dt = 0 ∧ s.st = 0 ∧
        s.tone = false ∧ (∀ r c, s.pixel r c = false) ∧ s.kd = 0 ∧ s.kr = 0 ∧ s.quit = false ∧
        s.slot = 0 ∧ s.batchEnd = false ∧ s.halted = false ∧ s.fault.kind.code = 0 ∧
        (∀ a < 4096, s.peek a =
          if 0x200 ≤ a ∧ a < 0x200 + program.length then (program[a - 0x200]?).getD 0
          else if 0x050 ≤ a ∧ a < 0x0A0 then
            (([0xF0, 0x90, 0x90, 0x90, 0xF0] ++ [0x20, 0x60, 0x20, 0x20, 0x70] ++
              [0xF0, 0x10, 0xF0, 0x80, 0xF0] ++ [0xF0, 0x10, 0xF0, 0x10, 0xF0] ++
              [0x90, 0x90, 0xF0, 0x10, 0x10] ++ [0xF0, 0x80, 0xF0, 0x10, 0xF0] ++
              [0xF0, 0x80, 0xF0, 0x90, 0xF0] ++ [0xF0, 0x10, 0x20, 0x40, 0x40] ++
              [0xF0, 0x90, 0xF0, 0x90, 0xF0] ++ [0xF0, 0x90, 0xF0, 0x10, 0xF0] ++
              [0xF0, 0x90, 0xF0, 0x90, 0x90] ++ [0xE0, 0x90, 0xE0, 0x90, 0xE0] ++
              [0xF0, 0x80, 0x80, 0x80, 0xF0] ++ [0xE0, 0x90, 0x90, 0x90, 0xE0] ++
              [0xF0, 0x80, 0xF0, 0x80, 0xF0] ++ [0xF0, 0x80, 0xF0, 0x80, 0x80] :
              List Byte)[a - 0x050]?).getD 0
          else 0))

/-- R62, R63: a write through the arbiter sets the one byte at its reduced address, changes no other
byte and no other state, and a read of the same reduced address gives it back. -/
def Obligations.ReadAfterWriteThroughTheArbiter : Prop :=
  ∀ (s t : State) (a : Nat) (b : Byte), s.memWrite a b = some t →
    t.memRead a = some b ∧
    (∀ a', reduceAddr s.cfg.addrPolicy a' ≠ reduceAddr s.cfg.addrPolicy a →
      t.memRead a' = s.memRead a') ∧
    t = { s with mem := t.mem }

/-- R74: a byte stored where the next instruction lies is what the next step fetches; here FX55 with
x = 1 stores V0 and V1 over the two bytes at pc. -/
def Obligations.StoredBytesAreFetchedNext : Prop :=
  ∀ s : State, s.cfg.addrPolicy = .wrap → s.i = s.pc →
    ∃ t, exec (.ldMemVx 1) s = .next t ∧ t.pc = s.pc ∧
      t.memRead t.pc.toNat = some (s.reg 0) ∧ t.memRead (t.pc.toNat + 1) = some (s.reg 1)

/-! ## Register loads and the ALU -/

/-- R181, R182: LD of a byte and ADD of a byte (which wraps) write Vx and touch no flag; VF changes
only as Vx itself. -/
def Obligations.ImmediateLoadAndAddTouchNoFlag : Prop :=
  ∀ (s : State) (x : Reg) (nn : Byte),
    (decodeWord s.cfg.lenientDecode (0x6#4 ++ BitVec.ofNat 4 x.val ++ nn) = .ok (.ldImm x nn) ∧
      ∃ t, exec (.ldImm x nn) s = .next t ∧ t.reg x = nn ∧ OnlyRegs [x] s t) ∧
    (decodeWord s.cfg.lenientDecode (0x7#4 ++ BitVec.ofNat 4 x.val ++ nn) = .ok (.addImm x nn) ∧
      ∃ t, exec (.addImm x nn) s = .next t ∧
        (t.reg x).toNat = ((s.reg x).toNat + nn.toNat) % 256 ∧ OnlyRegs [x] s t)

/-- R183: LD of a register copies Vy into Vx and, unlike OR, AND and XOR, does not zero VF. The bit
pattern 8XY0 is one that R95 marks as general knowledge. -/
def Obligations.CopyTouchesNoFlag : Prop :=
  ∀ (s : State) (x y : Reg),
    decodeWord s.cfg.lenientDecode
        (0x8#4 ++ BitVec.ofNat 4 x.val ++ BitVec.ofNat 4 y.val ++ 0x0#4) = .ok (.ldReg x y) ∧
    ∃ t, exec (.ldReg x y) s = .next t ∧ t.reg x = s.reg y ∧ OnlyRegs [x] s t

/-- R185, R186, R187: OR, AND and XOR write Vx from the operands before the instruction, then VF
becomes 0, also when x = 0xF. -/
def Obligations.LogicZeroesTheFlag : Prop :=
  ∀ (s : State) (x y : Reg),
    (decodeWord s.cfg.lenientDecode
            (0x8#4 ++ BitVec.ofNat 4 x.val ++ BitVec.ofNat 4 y.val ++ 0x1#4) =
        .ok (.orReg x y) ∧
      ∃ t, exec (.orReg x y) s = .next t ∧ t.reg VF = 0 ∧
        (x ≠ VF → t.reg x = s.reg x ||| s.reg y) ∧ OnlyRegs [x, VF] s t) ∧
    (decodeWord s.cfg.lenientDecode
            (0x8#4 ++ BitVec.ofNat 4 x.val ++ BitVec.ofNat 4 y.val ++ 0x2#4) =
        .ok (.andReg x y) ∧
      ∃ t, exec (.andReg x y) s = .next t ∧ t.reg VF = 0 ∧
        (x ≠ VF → t.reg x = s.reg x &&& s.reg y) ∧ OnlyRegs [x, VF] s t) ∧
    (decodeWord s.cfg.lenientDecode
            (0x8#4 ++ BitVec.ofNat 4 x.val ++ BitVec.ofNat 4 y.val ++ 0x3#4) =
        .ok (.xorReg x y) ∧
      ∃ t, exec (.xorReg x y) s = .next t ∧ t.reg VF = 0 ∧
        (x ≠ VF → t.reg x = s.reg x ^^^ s.reg y) ∧ OnlyRegs [x, VF] s t)

/-- R188: `s mod 256` in Vx, then the carry in VF; with x = 0xF VF holds the carry only. The bit
patterns are among those that R95 marks as general knowledge. -/
def Obligations.AddSetsTheCarry : Prop :=
  ∀ (s : State) (x y : Reg),
    decodeWord s.cfg.lenientDecode
          (0x8#4 ++ BitVec.ofNat 4 x.val ++ BitVec.ofNat 4 y.val ++ 0x4#4) =
      .ok (.addReg x y) ∧
    ∃ t, exec (.addReg x y) s = .next t ∧
      t.reg VF = (if 256 ≤ (s.reg x).toNat + (s.reg y).toNat then 1 else 0) ∧
      (x ≠ VF → (t.reg x).toNat = ((s.reg x).toNat + (s.reg y).toNat) % 256) ∧
      OnlyRegs [x, VF] s t

/-- R189, R190: the difference mod 256 in Vx, then VF 1 exactly if nothing is borrowed. The bit
patterns are among those that R95 marks as general knowledge. -/
def Obligations.SubtractionsSetNotBorrow : Prop :=
  ∀ (s : State) (x y : Reg),
    (decodeWord s.cfg.lenientDecode
            (0x8#4 ++ BitVec.ofNat 4 x.val ++ BitVec.ofNat 4 y.val ++ 0x5#4) =
        .ok (.subReg x y) ∧
      ∃ t, exec (.subReg x y) s = .next t ∧
        t.reg VF = (if (s.reg y).toNat ≤ (s.reg x).toNat then 1 else 0) ∧
        (x ≠ VF → (t.reg x).toNat = (256 + (s.reg x).toNat - (s.reg y).toNat) % 256) ∧
        OnlyRegs [x, VF] s t) ∧
    (decodeWord s.cfg.lenientDecode
            (0x8#4 ++ BitVec.ofNat 4 x.val ++ BitVec.ofNat 4 y.val ++ 0x7#4) =
        .ok (.subnReg x y) ∧
      ∃ t, exec (.subnReg x y) s = .next t ∧
        t.reg VF = (if (s.reg x).toNat ≤ (s.reg y).toNat then 1 else 0) ∧
        (x ≠ VF → (t.reg x).toNat = (256 + (s.reg y).toNat - (s.reg x).toNat) % 256) ∧
        OnlyRegs [x, VF] s t)

/-- R191, R192, R193: both shifts take Vy as the source, write Vx, and put the bit shifted out in
VF; Vx's old value is discarded and Vy is not changed unless it is Vx or VF. The bit patterns are
among those that R95 marks as general knowledge. -/
def Obligations.ShiftsMoveVyAndKeepTheBitShiftedOut : Prop :=
  ∀ (s : State) (x y : Reg),
    (decodeWord s.cfg.lenientDecode
            (0x8#4 ++ BitVec.ofNat 4 x.val ++ BitVec.ofNat 4 y.val ++ 0x6#4) =
        .ok (.shrReg x y) ∧
      ∃ t, exec (.shrReg x y) s = .next t ∧ (t.reg VF).toNat = (s.reg y).toNat % 2 ∧
        (x ≠ VF → (t.reg x).toNat = (s.reg y).toNat / 2) ∧ OnlyRegs [x, VF] s t) ∧
    (decodeWord s.cfg.lenientDecode
            (0x8#4 ++ BitVec.ofNat 4 x.val ++ BitVec.ofNat 4 y.val ++ 0xE#4) =
        .ok (.shlReg x y) ∧
      ∃ t, exec (.shlReg x y) s = .next t ∧ (t.reg VF).toNat = (s.reg y).toNat / 128 ∧
        (x ≠ VF → (t.reg x).toNat = 2 * (s.reg y).toNat % 256) ∧ OnlyRegs [x, VF] s t)

/-- R195 (the spec's decision D21; log entry 3): RND writes the host's byte masked with nn, whatever
the byte, and takes that byte off the host's answers. -/
def Obligations.RandomMasksTheHostsByte : Prop :=
  ∀ (s : State) (x : Reg) (nn r : Byte) (rs : List Byte),
    decodeWord s.cfg.lenientDecode (0xC#4 ++ BitVec.ofNat 4 x.val ++ nn) = .ok (.rnd x nn) ∧
    (∃ t, exec (.rnd x nn) s = .next t ∧ t.reg x = s.drawAnswer &&& nn ∧
      KeepsRegsBut [x] s t ∧ KeepsBytesBut [] s t ∧
      t = { s with v := t.v, host := { s.host with
        draws := s.host.draws.tail, asked := s.host.asked + 1 } }) ∧
    (s.host.draws = r :: rs →
      ∃ t, exec (.rnd x nn) s = .next t ∧ t.reg x = r &&& nn ∧ t.host.draws = rs)

/-! ## Control transfer -/

/-- R151: RET pops the top of the stack into pc; with an empty stack it raises StackUnderflow (R314)
and changes nothing else. That the fault record has no info is the model's (log entry 13). -/
def Obligations.ReturnPopsOrHalts : Prop :=
  ∀ s : State,
    decodeWord s.cfg.lenientDecode 0x00EE = .ok .ret ∧
    (∀ st w, s.stack = st ++ [w] →
      ∃ t, exec .ret s = .next t ∧ t.pc = w ∧ t.stack = st ∧
        KeepsRegsBut [] s t ∧ KeepsBytesBut [] s t ∧ t = { s with pc := t.pc, stack := t.stack }) ∧
    (s.stack = [] →
      exec .ret s = .next { s with
        halted := true, fault := s.insFault .stackUnderflow .noInfo })

/-- R152, R158: JP goes to nnn, JP V0 to nnn + V0, whose sum never wraps. The bit patterns are among
those that R95 marks as general knowledge. -/
def Obligations.JumpsGoToTheirTargets : Prop :=
  ∀ (s : State) (nnn : Addr),
    (decodeWord s.cfg.lenientDecode (0x1#4 ++ nnn) = .ok (.jp nnn) ∧
      ∃ t, exec (.jp nnn) s = .next t ∧ t.pc.toNat = nnn.toNat ∧ OnlyPc s t) ∧
    (decodeWord s.cfg.lenientDecode (0xB#4 ++ nnn) = .ok (.jpV0 nnn) ∧
      ∃ t, exec (.jpV0 nnn) s = .next t ∧ t.pc.toNat = nnn.toNat + (s.reg 0).toNat ∧ OnlyPc s t)

/-- R153, R315 (the spec's decision D4 for the bound and the overflow): CALL pushes pc and jumps;
with a full stack it raises StackOverflow and changes nothing else. The bit patterns are among those
that R95 marks as general knowledge. That the fault record has no info is the model's (log entry
13). -/
def Obligations.CallPushesTheReturnAddressOrHalts : Prop :=
  ∀ (s : State) (nnn : Addr),
    decodeWord s.cfg.lenientDecode (0x2#4 ++ nnn) = .ok (.call nnn) ∧
    (s.sp < s.cfg.stackDepth →
      ∃ t, exec (.call nnn) s = .next t ∧ t.stack = s.stack ++ [s.pc] ∧ t.sp = s.sp + 1 ∧
        t.pc.toNat = nnn.toNat ∧ KeepsRegsBut [] s t ∧ KeepsBytesBut [] s t ∧
        t = { s with pc := t.pc, stack := t.stack }) ∧
    (s.cfg.stackDepth ≤ s.sp →
      exec (.call nnn) s = .next { s with
        halted := true, fault := s.insFault .stackOverflow .noInfo })

/-- R153 with R151: a CALL and then a RET resume at the instruction after the CALL, with the stack
as it was, and save or restore nothing but pc. -/
def Obligations.ReturnUndoesCall : Prop :=
  ∀ (s : State) (nnn : Addr), s.sp < s.cfg.stackDepth →
    ∃ t u, exec (.call nnn) s = .next t ∧ exec .ret t = .next u ∧ u = s

/-- R154, R155: SE and SNE with an immediate skip 2 bytes more exactly if Vx is, or is not, nn. The
bit patterns are among those that R95 marks as general knowledge. -/
def Obligations.ImmediateSkips : Prop :=
  ∀ (s : State) (x : Reg) (nn : Byte),
    (decodeWord s.cfg.lenientDecode (0x3#4 ++ BitVec.ofNat 4 x.val ++ nn) = .ok (.seImm x nn) ∧
      ∃ t, exec (.seImm x nn) s = .next t ∧
        t.pc = (if s.reg x = nn then s.pc + 2 else s.pc) ∧ OnlyPc s t) ∧
    (decodeWord s.cfg.lenientDecode (0x4#4 ++ BitVec.ofNat 4 x.val ++ nn) = .ok (.sneImm x nn) ∧
      ∃ t, exec (.sneImm x nn) s = .next t ∧
        t.pc = (if s.reg x = nn then s.pc else s.pc + 2) ∧ OnlyPc s t)

/-- R156, R157: SE and SNE of two registers, with n = 0 in the word. The bit patterns are among
those that R95 marks as general knowledge. -/
def Obligations.RegisterSkips : Prop :=
  ∀ (s : State) (x y : Reg),
    (decodeWord s.cfg.lenientDecode
            (0x5#4 ++ BitVec.ofNat 4 x.val ++ BitVec.ofNat 4 y.val ++ 0x0#4) =
        .ok (.seReg x y) ∧
      ∃ t, exec (.seReg x y) s = .next t ∧
        t.pc = (if s.reg x = s.reg y then s.pc + 2 else s.pc) ∧ OnlyPc s t) ∧
    (decodeWord s.cfg.lenientDecode
            (0x9#4 ++ BitVec.ofNat 4 x.val ++ BitVec.ofNat 4 y.val ++ 0x0#4) =
        .ok (.sneReg x y) ∧
      ∃ t, exec (.sneReg x y) s = .next t ∧
        t.pc = (if s.reg x = s.reg y then s.pc else s.pc + 2) ∧ OnlyPc s t)

/-! ## Display -/

/-- R221: CLS clears every pixel, sends the frame, takes the host's report over and ends the batch;
if the display fails, HostIo is raised and the cleared framebuffer stands. What a Flush takes over
is the spec's decision D28; a frame counts as sent also when the display fails (the model's reading,
log entry 19). -/
def Obligations.ClearScreenClearsAndFlushes : Prop :=
  ∀ s : State,
    decodeWord s.cfg.lenientDecode 0x00E0 = .ok .cls ∧
    (s.flushAnswer.ok = true →
      ∃ t, exec .cls s = .next t ∧ (∀ r c, t.pixel r c = false) ∧
        t.out = ⟨t.fb, s.out.count + 1⟩ ∧ t.batchEnd = true ∧
        t.kd = s.flushAnswer.report.kd ∧ t.kr = s.flushAnswer.report.kr ∧
        t.quit = (s.quit || s.flushAnswer.report.quitReq) ∧
        KeepsRegsBut [] s t ∧ KeepsBytesBut [] s t ∧
        t = { s with fb := t.fb, out := t.out, batchEnd := true, kd := t.kd, kr := t.kr,
                     quit := t.quit, host := s.takeFlush.host }) ∧
    (s.flushAnswer.ok = false →
      ∃ t, exec .cls s = .next t ∧ (∀ r c, t.pixel r c = false) ∧
        t.out = ⟨t.fb, s.out.count + 1⟩ ∧ KeepsRegsBut [] s t ∧ KeepsBytesBut [] s t ∧
        t = { s with fb := t.fb, out := t.out, host := s.takeFlush.host, halted := true,
                     fault := s.insFault .hostIo .display })

/-- R224, R225, R226: DRW XORs the clipped sprite into the framebuffer, sets VF to 1 exactly if a
set bit met a set pixel, then flushes and ends the batch; if the display fails, HostIo is raised
after the framebuffer and VF were written. The origin is that of VF before the instruction where x
or y is 0xF (the spec's decision D14). What a Flush takes over is D28, that clipped rows are not
read D33; a frame counts as sent also when the display fails (the model's reading, log entry 19);
the bit pattern is one that R95 marks as general knowledge. -/
def Obligations.DrawXorsTheClippedSprite : Prop :=
  ∀ (s : State) (x y : Reg) (n : BitVec 4), s.spriteReadable y n →
    decodeWord s.cfg.lenientDecode
          (0xD#4 ++ BitVec.ofNat 4 x.val ++ BitVec.ofNat 4 y.val ++ n) =
      .ok (.drw x y n) ∧
    (s.flushAnswer.ok = true →
      ∃ t, exec (.drw x y n) s = .next t ∧ s.Drawn t x y n.toNat ∧
        t.out = ⟨t.fb, s.out.count + 1⟩ ∧ t.batchEnd = true ∧
        t.kd = s.flushAnswer.report.kd ∧ t.kr = s.flushAnswer.report.kr ∧
        t.quit = (s.quit || s.flushAnswer.report.quitReq) ∧ KeepsBytesBut [] s t ∧
        t = { s with v := t.v, fb := t.fb, out := t.out, batchEnd := true, kd := t.kd, kr := t.kr,
                     quit := t.quit, host := s.takeFlush.host }) ∧
    (s.flushAnswer.ok = false →
      ∃ t, exec (.drw x y n) s = .next t ∧ s.Drawn t x y n.toNat ∧
        t.out = ⟨t.fb, s.out.count + 1⟩ ∧ KeepsBytesBut [] s t ∧
        t = { s with v := t.v, fb := t.fb, out := t.out, host := s.takeFlush.host,
                     halted := true, fault := s.insFault .hostIo .display })

/-- R222 and R124 under `MEM_ADDR_POLICY = Fault` (the spec's decisions D2, D16, D33): the first
sprite byte that cannot be read halts DRW with MemBounds; the rows above it are drawn, and no frame
is sent. -/
def Obligations.DrawStopsAtAnUnreadableRow : Prop :=
  ∀ (s : State) (x y : Reg) (n : BitVec 4) (k : Nat),
    k < n.toNat → originRow (s.reg y) + k < 32 → s.memRead (s.i.toNat + k) = none →
    (∀ j < k, s.memRead (s.i.toNat + j) ≠ none) →
    ∃ t, exec (.drw x y n) s = .next t ∧ s.Drawn t x y k ∧ KeepsBytesBut [] s t ∧
      t = { s with v := t.v, fb := t.fb, halted := true,
                   fault := s.insFault .memBounds (.address (s.i.toNat + k)) }

/-- R228 as far as it follows from R222 (log entry 15): drawing the same sprite twice at the same
origin restores the framebuffer; the second draw sets VF exactly if a set bit of the sprite that is
not clipped stood on a clear pixel before the first, so, where the first draw met no set pixel,
exactly if the sprite has a set bit that is not clipped. -/
def Obligations.DrawingTwiceRestoresTheFrame : Prop :=
  ∀ (s t u : State) (x y : Reg) (n : BitVec 4), s.spriteReadable y n → x ≠ VF → y ≠ VF →
    s.flushAnswer.ok = true → t.flushAnswer.ok = true →
    exec (.drw x y n) s = .next t → exec (.drw x y n) t = .next u →
    (∀ r c, u.pixel r c = s.pixel r c) ∧ u.halted = s.halted ∧
    (u.reg VF = 1 ↔ ∃ r c, s.spriteBit x y n.toNat r c = true ∧ s.pixel r c = false) ∧
    (t.reg VF = 0 → (u.reg VF = 1 ↔ ∃ r c, s.spriteBit x y n.toNat r c = true))

/-! ## Keys and timers -/

/-- R250, R251, R252: the key is Vx's low nibble; SKP skips exactly if it is down, SKNP exactly if
it is not. The bit patterns are among those that R95 marks as general knowledge. -/
def Obligations.KeySkipsTestTheLowNibble : Prop :=
  ∀ (s : State) (x : Reg),
    (decodeWord s.cfg.lenientDecode (0xE#4 ++ BitVec.ofNat 4 x.val ++ 0x9E#8) = .ok (.skp x) ∧
      ∃ t, exec (.skp x) s = .next t ∧
        t.pc = (if s.kd.getLsbD ((s.reg x).toNat % 16) = true then s.pc + 2 else s.pc) ∧
        OnlyPc s t) ∧
    (decodeWord s.cfg.lenientDecode (0xE#4 ++ BitVec.ofNat 4 x.val ++ 0xA1#8) = .ok (.sknp x) ∧
      ∃ t, exec (.sknp x) s = .next t ∧
        t.pc = (if s.kd.getLsbD ((s.reg x).toNat % 16) = true then s.pc else s.pc + 2) ∧
        OnlyPc s t)

/-- R253, R255: FX07 reads DT into Vx, FX15 writes it from Vx. The bit patterns are among those that
R95 marks as general knowledge. -/
def Obligations.DelayTimerIsReadAndWritten : Prop :=
  ∀ (s : State) (x : Reg),
    (decodeWord s.cfg.lenientDecode (0xF#4 ++ BitVec.ofNat 4 x.val ++ 0x07#8) = .ok (.ldVxDt x) ∧
      ∃ t, exec (.ldVxDt x) s = .next t ∧ t.reg x = s.dt ∧ OnlyRegs [x] s t) ∧
    (decodeWord s.cfg.lenientDecode (0xF#4 ++ BitVec.ofNat 4 x.val ++ 0x15#8) = .ok (.ldDtVx x) ∧
      ∃ t, exec (.ldDtVx x) s = .next t ∧ t.dt = s.reg x ∧
        KeepsRegsBut [] s t ∧ KeepsBytesBut [] s t ∧ t = { s with dt := t.dt })

/-- R256, R334: FX18 writes ST and the tone follows; at a transition the host is asked, and an audio
failure halts the CORE after the new ST is written (R317). The bit patterns are among those that R95
marks as general knowledge. That without a transition the host is not asked is the model's reading
(log entry 19). -/
def Obligations.SoundTimerDrivesTheTone : Prop :=
  ∀ (s : State) (x : Reg),
    decodeWord s.cfg.lenientDecode (0xF#4 ++ BitVec.ofNat 4 x.val ++ 0x18#8) = .ok (.ldStVx x) ∧
    ((s.reg x = 0 ↔ s.st = 0) →
      ∃ t, exec (.ldStVx x) s = .next t ∧ t.st = s.reg x ∧ t.tone = s.tone ∧
        KeepsRegsBut [] s t ∧ KeepsBytesBut [] s t ∧ t = { s with st := t.st }) ∧
    (¬ (s.reg x = 0 ↔ s.st = 0) → s.audioAnswer = true →
      ∃ t, exec (.ldStVx x) s = .next t ∧ t.st = s.reg x ∧ t.tone = !s.tone ∧
        KeepsRegsBut [] s t ∧ KeepsBytesBut [] s t ∧
        t = { s with st := t.st, host := s.takeAudio.host }) ∧
    (¬ (s.reg x = 0 ↔ s.st = 0) → s.audioAnswer = false →
      ∃ t, exec (.ldStVx x) s = .next t ∧ t.st = s.reg x ∧ t.tone = !s.tone ∧
        KeepsRegsBut [] s t ∧ KeepsBytesBut [] s t ∧
        t = { s with st := t.st, host := s.takeAudio.host, halted := true,
                     fault := s.insFault .hostIo .audio })

/-- R254 (the spec's decision D13 for KR staying as it is): FX0A stores the lowest released key of
0..`WAIT_KEY_MAX` in Vx; with none released it only puts pc back by 2. That a `WAIT_KEY_MAX` above
0xF looks at the 16 keys that exist is the model's choice (log entry 20). -/
def Obligations.WaitForKeyTakesTheLowestOrRewinds : Prop :=
  ∀ (s : State) (x : Reg),
    decodeWord s.cfg.lenientDecode (0xF#4 ++ BitVec.ofNat 4 x.val ++ 0x0A#8) = .ok (.ldVxK x) ∧
    (∀ k : Key, k.val ≤ s.cfg.waitKeyMax → s.kr.getLsbD k.val = true →
      (∀ j : Key, j < k → s.kr.getLsbD j.val = false) →
      ∃ t, exec (.ldVxK x) s = .next t ∧ (t.reg x).toNat = k.val ∧ OnlyRegs [x] s t) ∧
    ((∀ k : Key, k.val ≤ s.cfg.waitKeyMax → s.kr.getLsbD k.val = false) →
      ∃ t, exec (.ldVxK x) s = .next t ∧ t.pc = s.pc - 2 ∧ OnlyPc s t)

/-- R254, R128, R364: in a batch, a wait-for-key that finds no key costs one slot and changes
nothing else the program can see: the same instruction is fetched at the next step. -/
def Obligations.WaitingCostsOneSlot : Prop :=
  ∀ (s : State) (x : Reg), s.inBatch →
    s.memRead s.pc.toNat = some (0xF#4 ++ BitVec.ofNat 4 x.val) →
    s.memRead (s.pc.toNat + 1) = some 0x0A →
    (∀ k : Key, k.val ≤ s.cfg.waitKeyMax → s.kr.getLsbD k.val = false) →
    ∃ t, step s = .next t ∧ t.slot = s.slot + 1 ∧ t.pc = s.pc ∧
      t = { s with slot := t.slot, ins := t.ins }

/-! ## Index register and memory -/

/-- R280, R281, R282: ANNN loads I; FX1E adds Vx at 16 bits and writes no flag (the spec's decision
D15); FX29 points I at the glyph of Vx's low nibble. The bit patterns are among those that R95 marks
as general knowledge. At the default `FONT_BASE` of R7 the reduction mod 65536 of FX29's sum changes
nothing; that it applies to every other configuration is the model's choice (log entry 20). -/
def Obligations.IndexInstructionsWriteOnlyTheIndex : Prop :=
  ∀ (s : State) (x : Reg) (nnn : Addr),
    (decodeWord s.cfg.lenientDecode (0xA#4 ++ nnn) = .ok (.ldI nnn) ∧
      ∃ t, exec (.ldI nnn) s = .next t ∧ t.i.toNat = nnn.toNat ∧ OnlyIndex s t) ∧
    (decodeWord s.cfg.lenientDecode (0xF#4 ++ BitVec.ofNat 4 x.val ++ 0x1E#8) = .ok (.addIVx x) ∧
      ∃ t, exec (.addIVx x) s = .next t ∧
        t.i.toNat = (s.i.toNat + (s.reg x).toNat) % 65536 ∧ OnlyIndex s t) ∧
    (decodeWord s.cfg.lenientDecode (0xF#4 ++ BitVec.ofNat 4 x.val ++ 0x29#8) = .ok (.ldFVx x) ∧
      ∃ t, exec (.ldFVx x) s = .next t ∧
        t.i.toNat = (s.cfg.fontBase + 5 * ((s.reg x).toNat % 16)) % 65536 ∧ OnlyIndex s t)

/-- R283: FX33 stores the hundreds, tens and units of Vx at I, I + 1 and I + 2 and changes no other
byte and not I; the first of these addresses that faults halts it with MemBounds after the earlier
writes. The bit patterns are among those that R95 marks as general knowledge. -/
def Obligations.BcdStoresThreeDigits : Prop :=
  ∀ (s : State) (x : Reg),
    decodeWord s.cfg.lenientDecode (0xF#4 ++ BitVec.ofNat 4 x.val ++ 0x33#8) = .ok (.ldBVx x) ∧
    ((∀ k < 3, s.memRead (s.i.toNat + k) ≠ none) →
      ∃ t h d u, exec (.ldBVx x) s = .next t ∧
        t.memRead s.i.toNat = some h ∧ t.memRead (s.i.toNat + 1) = some d ∧
        t.memRead (s.i.toNat + 2) = some u ∧
        h.toNat ≤ 2 ∧ d.toNat ≤ 9 ∧ u.toNat ≤ 9 ∧
        100 * h.toNat + 10 * d.toNat + u.toNat = (s.reg x).toNat ∧
        (∀ a, (∀ k < 3, reduceAddr s.cfg.addrPolicy (s.i.toNat + k) ≠ some a) →
          t.peek a = s.peek a) ∧
        KeepsRegsBut [] s t ∧ t = { s with mem := t.mem }) ∧
    (∀ k < 3, s.memRead (s.i.toNat + k) = none →
      (∀ j < k, s.memRead (s.i.toNat + j) ≠ none) →
      ∃ t, exec (.ldBVx x) s = .next t ∧
        (∀ j < k, t.memRead (s.i.toNat + j) =
          some (BitVec.ofNat 8 ((s.reg x).toNat / 10 ^ (2 - j) % 10))) ∧
        (∀ a, (∀ j < k, reduceAddr s.cfg.addrPolicy (s.i.toNat + j) ≠ some a) →
          t.peek a = s.peek a) ∧
        KeepsRegsBut [] s t ∧
        t = { s with mem := t.mem, halted := true,
                     fault := s.insFault .memBounds (.address (s.i.toNat + k)) })

/-- R284, R285: FX55 stores V0 to Vx in the bytes from I, leaves I higher by x + 1 and changes no
other byte; the first address that faults halts it with MemBounds, the earlier writes and increments
done. -/
def Obligations.RegisterDumpStoresAndAdvances : Prop :=
  ∀ (s : State) (x : Reg),
    decodeWord s.cfg.lenientDecode (0xF#4 ++ BitVec.ofNat 4 x.val ++ 0x55#8) = .ok (.ldMemVx x) ∧
    ((∀ k : Reg, k ≤ x → s.memRead (s.regAddr k) ≠ none) →
      ∃ t, exec (.ldMemVx x) s = .next t ∧
        (∀ k : Reg, k ≤ x → t.memRead (s.regAddr k) = some (s.reg k)) ∧
        t.i = s.i + BitVec.ofNat 16 (x.val + 1) ∧
        (∀ a, (∀ k : Reg, k ≤ x → reduceAddr s.cfg.addrPolicy (s.regAddr k) ≠ some a) →
          t.peek a = s.peek a) ∧
        KeepsRegsBut [] s t ∧ t = { s with mem := t.mem, i := t.i }) ∧
    (∀ k : Reg, k ≤ x → s.memRead (s.regAddr k) = none →
      (∀ j : Reg, j < k → s.memRead (s.regAddr j) ≠ none) →
      ∃ t, exec (.ldMemVx x) s = .next t ∧
        (∀ j : Reg, j < k → t.memRead (s.regAddr j) = some (s.reg j)) ∧
        t.i = s.i + BitVec.ofNat 16 k.val ∧
        (∀ a, (∀ j : Reg, j < k → reduceAddr s.cfg.addrPolicy (s.regAddr j) ≠ some a) →
          t.peek a = s.peek a) ∧
        KeepsRegsBut [] s t ∧
        t = { s with mem := t.mem, i := t.i, halted := true,
                     fault := s.insFault .memBounds (.address (s.regAddr k)) })

/-- R284, R286: FX65 loads V0 to Vx from the bytes from I, leaves I higher by x + 1 and every other
register and all memory as they were; the first address that faults halts it with MemBounds, the
earlier loads and increments done. -/
def Obligations.RegisterLoadReadsAndAdvances : Prop :=
  ∀ (s : State) (x : Reg),
    decodeWord s.cfg.lenientDecode (0xF#4 ++ BitVec.ofNat 4 x.val ++ 0x65#8) = .ok (.ldVxMem x) ∧
    ((∀ k : Reg, k ≤ x → s.memRead (s.regAddr k) ≠ none) →
      ∃ t, exec (.ldVxMem x) s = .next t ∧
        (∀ k : Reg, k ≤ x → s.memRead (s.regAddr k) = some (t.reg k)) ∧
        (∀ k : Reg, x < k → t.reg k = s.reg k) ∧
        t.i = s.i + BitVec.ofNat 16 (x.val + 1) ∧
        KeepsBytesBut [] s t ∧ t = { s with v := t.v, i := t.i }) ∧
    (∀ k : Reg, k ≤ x → s.memRead (s.regAddr k) = none →
      (∀ j : Reg, j < k → s.memRead (s.regAddr j) ≠ none) →
      ∃ t, exec (.ldVxMem x) s = .next t ∧
        (∀ j : Reg, j < k → s.memRead (s.regAddr j) = some (t.reg j)) ∧
        (∀ j : Reg, k ≤ j → t.reg j = s.reg j) ∧
        t.i = s.i + BitVec.ofNat 16 k.val ∧
        KeepsBytesBut [] s t ∧
        t = { s with v := t.v, i := t.i, halted := true,
                     fault := s.insFault .memBounds (.address (s.regAddr k)) })

/-- R285 then R286: registers dumped, and then loaded in any later state whose I is back and whose
memory is that of the dump, are those that were dumped. -/
def Obligations.LoadAfterDumpRestoresRegisters : Prop :=
  ∀ (s t t' u : State) (x : Reg), s.cfg.addrPolicy = .wrap →
    exec (.ldMemVx x) s = .next t → t'.mem = t.mem → t'.cfg = s.cfg → t'.i = s.i →
    exec (.ldVxMem x) t' = .next u →
    (∀ k : Reg, k ≤ x → u.reg k = s.reg k) ∧ u.i = t.i ∧ u.halted = t'.halted
end

