-- ==== Sys2Proof/Laws/Decode.lean ====
section
/-! SUPPORT. The fields of a word put together by a format of R93, and what a row's mask keeps of
it. -/

namespace Sys2Proof

theorem extract_append_high {a b : Nat} (x : BitVec a) (y : BitVec b) :
    BitVec.extractLsb' b a (x ++ y) = x := by
  rw [BitVec.extractLsb'_append_eq_of_le (by omega)]
  simp

theorem extract_append_low {a b : Nat} (x : BitVec a) (y : BitVec b) :
    BitVec.extractLsb' 0 b (x ++ y) = y := by
  rw [BitVec.extractLsb'_append_eq_of_add_le (by omega)]
  simp

/-- A register's number written in four bits is its field. -/
theorem ofNat_reg (x : Reg) : BitVec.ofNat 4 x.val = regField x := by
  revert x; decide

/-- The three formats as a register's number and the fields put side by side. -/
theorem append_formatXK (op : BitVec 4) (x : Reg) (nn : Byte) :
    op ++ BitVec.ofNat 4 x.val ++ nn = formatXK op x nn := by rw [ofNat_reg]; rfl

theorem append_formatXY (op : BitVec 4) (x y : Reg) (n : BitVec 4) :
    op ++ BitVec.ofNat 4 x.val ++ BitVec.ofNat 4 y.val ++ n = formatXY op x y n := by
  rw [ofNat_reg, ofNat_reg]; rfl

theorem append_formatA (op : BitVec 4) (nnn : Addr) : op ++ nnn = formatA op nnn := rfl

/-! ## Format A -/

@[simp] theorem fieldOp_formatA (op : BitVec 4) (nnn : Addr) : fieldOp (formatA op nnn) = op :=
  extract_append_high _ _

@[simp] theorem fieldNNN_formatA (op : BitVec 4) (nnn : Addr) : fieldNNN (formatA op nnn) = nnn :=
  extract_append_low _ _

/-! ## Format XK (and XS) -/

@[simp] theorem fieldOp_formatXK (op : BitVec 4) (x : Reg) (nn : Byte) :
    fieldOp (formatXK op x nn) = op := by
  unfold fieldOp formatXK
  rw [BitVec.extractLsb'_append_eq_of_le (by omega)]
  exact extract_append_high _ _

@[simp] theorem fieldX_formatXK (op : BitVec 4) (x : Reg) (nn : Byte) :
    fieldX (formatXK op x nn) = x := by
  unfold fieldX formatXK
  rw [BitVec.extractLsb'_append_eq_of_le (by omega), extract_append_low]
  rfl

@[simp] theorem fieldNN_formatXK (op : BitVec 4) (x : Reg) (nn : Byte) :
    fieldNN (formatXK op x nn) = nn := extract_append_low _ _

/-! ## Formats XY and XYN -/

@[simp] theorem fieldOp_formatXY (op : BitVec 4) (x y : Reg) (n : BitVec 4) :
    fieldOp (formatXY op x y n) = op := by
  unfold fieldOp formatXY
  rw [BitVec.extractLsb'_append_eq_of_le (by omega), BitVec.extractLsb'_append_eq_of_le (by omega)]
  exact extract_append_high _ _

@[simp] theorem fieldX_formatXY (op : BitVec 4) (x y : Reg) (n : BitVec 4) :
    fieldX (formatXY op x y n) = x := by
  unfold fieldX formatXY
  rw [BitVec.extractLsb'_append_eq_of_le (by omega), BitVec.extractLsb'_append_eq_of_le (by omega),
    extract_append_low]
  rfl

@[simp] theorem fieldY_formatXY (op : BitVec 4) (x y : Reg) (n : BitVec 4) :
    fieldY (formatXY op x y n) = y := by
  unfold fieldY formatXY
  rw [BitVec.extractLsb'_append_eq_of_le (by omega), extract_append_low]
  rfl

@[simp] theorem fieldN_formatXY (op : BitVec 4) (x y : Reg) (n : BitVec 4) :
    fieldN (formatXY op x y n) = n := extract_append_low _ _

/-! ## A word is its fields put together -/

theorem extract_join {a b : Nat} (w : BitVec (a + b)) :
    w.extractLsb' b a ++ w.extractLsb' 0 b = w := by
  rw [BitVec.extractLsb'_append_extractLsb'_eq_extractLsb' (by omega)]
  simp

theorem formatA_fields (w : Word) : formatA (fieldOp w) (fieldNNN w) = w :=
  extract_join (a := 4) (b := 12) w

theorem formatXK_fields (w : Word) : formatXK (fieldOp w) (fieldX w) (fieldNN w) = w := by
  unfold formatXK fieldOp fieldNN
  rw [show regField (fieldX w) = w.extractLsb' 8 4 from rfl,
    BitVec.extractLsb'_append_extractLsb'_eq_extractLsb' (by omega)]
  exact extract_join (a := 8) (b := 8) w

theorem formatXY_fields (w : Word) :
    formatXY (fieldOp w) (fieldX w) (fieldY w) (fieldN w) = w := by
  unfold formatXY fieldOp fieldN
  rw [show regField (fieldX w) = w.extractLsb' 8 4 from rfl,
    BitVec.extractLsb'_append_extractLsb'_eq_extractLsb' (by omega),
    show regField (fieldY w) = w.extractLsb' 4 4 from rfl,
    BitVec.extractLsb'_append_extractLsb'_eq_extractLsb' (by omega)]
  exact extract_join (a := 12) (b := 4) w

theorem nibble_cases (n : BitVec 4) :
    n = 0x0 ∨ n = 0x1 ∨ n = 0x2 ∨ n = 0x3 ∨ n = 0x4 ∨ n = 0x5 ∨ n = 0x6 ∨ n = 0x7 ∨
    n = 0x8 ∨ n = 0x9 ∨ n = 0xA ∨ n = 0xB ∨ n = 0xC ∨ n = 0xD ∨ n = 0xE ∨ n = 0xF := by
  revert n; decide

/-! ## What the masks of R95 keep -/

theorem formatA_mask (op : BitVec 4) (nnn : Addr) : formatA op nnn &&& 0xF000 = op ++ 0#12 := by
  rw [show (0xF000 : Word) = 0xF#4 ++ 0#12 by decide, formatA, BitVec.and_append]
  simp only [BitVec.and_zero]
  revert op; decide

theorem formatXK_mask (op : BitVec 4) (x : Reg) (nn : Byte) :
    formatXK op x nn &&& 0xF000 = op ++ 0#12 := by
  rw [show (0xF000 : Word) = 0xF#4 ++ 0#4 ++ 0#8 by decide, formatXK, BitVec.and_append,
    BitVec.and_append]
  simp only [BitVec.and_zero]
  revert op; decide

theorem formatXK_mask_subop (op : BitVec 4) (x : Reg) (nn : Byte) :
    formatXK op x nn &&& 0xF0FF = op ++ 0#4 ++ nn := by
  rw [show (0xF0FF : Word) = 0xF#4 ++ 0#4 ++ 0xFF#8 by decide, formatXK, BitVec.and_append,
    BitVec.and_append]
  simp only [BitVec.and_zero, show (0xFF#8) = BitVec.allOnes 8 by decide,
    show (0xF#4) = BitVec.allOnes 4 by decide, BitVec.and_allOnes]

theorem formatXY_mask (op : BitVec 4) (x y : Reg) (n : BitVec 4) :
    formatXY op x y n &&& 0xF000 = op ++ 0#12 := by
  rw [show (0xF000 : Word) = 0xF#4 ++ 0#4 ++ 0#4 ++ 0#4 by decide, formatXY, BitVec.and_append,
    BitVec.and_append, BitVec.and_append]
  simp only [BitVec.and_zero]
  revert op; decide

theorem formatXY_mask_subop (op : BitVec 4) (x y : Reg) (n : BitVec 4) :
    formatXY op x y n &&& 0xF00F = op ++ 0#8 ++ n := by
  rw [show (0xF00F : Word) = 0xF#4 ++ 0#4 ++ 0#4 ++ 0xF#4 by decide, formatXY, BitVec.and_append,
    BitVec.and_append, BitVec.and_append]
  simp only [BitVec.and_zero]
  revert op n; decide

end Sys2Proof
end

