-- ==== Sys2Proof/Laws/State.lean ====
section
/-! SUPPORT. The fields of a state after each update: one lemma per field per update, true by `rfl`,
so that no later proof unfolds a record update. -/

namespace Sys2Proof.Machine

section
variable (s : State)

@[simp] theorem State.setReg_cfg (x : Reg) (b : Byte) : (s.setReg x b).cfg = s.cfg := rfl
@[simp] theorem State.setReg_mem (x : Reg) (b : Byte) : (s.setReg x b).mem = s.mem := rfl
@[simp] theorem State.setReg_v (x : Reg) (b : Byte) : (s.setReg x b).v = s.v.set x.val b := rfl
@[simp] theorem State.setReg_i (x : Reg) (b : Byte) : (s.setReg x b).i = s.i := rfl
@[simp] theorem State.setReg_pc (x : Reg) (b : Byte) : (s.setReg x b).pc = s.pc := rfl
@[simp] theorem State.setReg_stack (x : Reg) (b : Byte) : (s.setReg x b).stack = s.stack := rfl
@[simp] theorem State.setReg_dt (x : Reg) (b : Byte) : (s.setReg x b).dt = s.dt := rfl
@[simp] theorem State.setReg_st (x : Reg) (b : Byte) : (s.setReg x b).st = s.st := rfl
@[simp] theorem State.setReg_fb (x : Reg) (b : Byte) : (s.setReg x b).fb = s.fb := rfl
@[simp] theorem State.setReg_kd (x : Reg) (b : Byte) : (s.setReg x b).kd = s.kd := rfl
@[simp] theorem State.setReg_kr (x : Reg) (b : Byte) : (s.setReg x b).kr = s.kr := rfl
@[simp] theorem State.setReg_quit (x : Reg) (b : Byte) : (s.setReg x b).quit = s.quit := rfl
@[simp] theorem State.setReg_slot (x : Reg) (b : Byte) : (s.setReg x b).slot = s.slot := rfl
@[simp] theorem State.setReg_batchEnd (x : Reg) (b : Byte) : (s.setReg x b).batchEnd = s.batchEnd := rfl
@[simp] theorem State.setReg_halted (x : Reg) (b : Byte) : (s.setReg x b).halted = s.halted := rfl
@[simp] theorem State.setReg_fault (x : Reg) (b : Byte) : (s.setReg x b).fault = s.fault := rfl
@[simp] theorem State.setReg_ended (x : Reg) (b : Byte) : (s.setReg x b).ended = s.ended := rfl
@[simp] theorem State.setReg_inTick (x : Reg) (b : Byte) : (s.setReg x b).inTick = s.inTick := rfl
@[simp] theorem State.setReg_ins (x : Reg) (b : Byte) : (s.setReg x b).ins = s.ins := rfl
@[simp] theorem State.setReg_out (x : Reg) (b : Byte) : (s.setReg x b).out = s.out := rfl
@[simp] theorem State.setReg_host (x : Reg) (b : Byte) : (s.setReg x b).host = s.host := rfl

@[simp] theorem State.setI_cfg (w : Word) : (s.setI w).cfg = s.cfg := rfl
@[simp] theorem State.setI_mem (w : Word) : (s.setI w).mem = s.mem := rfl
@[simp] theorem State.setI_v (w : Word) : (s.setI w).v = s.v := rfl
@[simp] theorem State.setI_i (w : Word) : (s.setI w).i = w := rfl
@[simp] theorem State.setI_pc (w : Word) : (s.setI w).pc = s.pc := rfl
@[simp] theorem State.setI_stack (w : Word) : (s.setI w).stack = s.stack := rfl
@[simp] theorem State.setI_dt (w : Word) : (s.setI w).dt = s.dt := rfl
@[simp] theorem State.setI_st (w : Word) : (s.setI w).st = s.st := rfl
@[simp] theorem State.setI_fb (w : Word) : (s.setI w).fb = s.fb := rfl
@[simp] theorem State.setI_kd (w : Word) : (s.setI w).kd = s.kd := rfl
@[simp] theorem State.setI_kr (w : Word) : (s.setI w).kr = s.kr := rfl
@[simp] theorem State.setI_quit (w : Word) : (s.setI w).quit = s.quit := rfl
@[simp] theorem State.setI_slot (w : Word) : (s.setI w).slot = s.slot := rfl
@[simp] theorem State.setI_batchEnd (w : Word) : (s.setI w).batchEnd = s.batchEnd := rfl
@[simp] theorem State.setI_halted (w : Word) : (s.setI w).halted = s.halted := rfl
@[simp] theorem State.setI_fault (w : Word) : (s.setI w).fault = s.fault := rfl
@[simp] theorem State.setI_ended (w : Word) : (s.setI w).ended = s.ended := rfl
@[simp] theorem State.setI_inTick (w : Word) : (s.setI w).inTick = s.inTick := rfl
@[simp] theorem State.setI_ins (w : Word) : (s.setI w).ins = s.ins := rfl
@[simp] theorem State.setI_out (w : Word) : (s.setI w).out = s.out := rfl
@[simp] theorem State.setI_host (w : Word) : (s.setI w).host = s.host := rfl

@[simp] theorem State.setPc_cfg (w : Word) : (s.setPc w).cfg = s.cfg := rfl
@[simp] theorem State.setPc_mem (w : Word) : (s.setPc w).mem = s.mem := rfl
@[simp] theorem State.setPc_v (w : Word) : (s.setPc w).v = s.v := rfl
@[simp] theorem State.setPc_i (w : Word) : (s.setPc w).i = s.i := rfl
@[simp] theorem State.setPc_pc (w : Word) : (s.setPc w).pc = w := rfl
@[simp] theorem State.setPc_stack (w : Word) : (s.setPc w).stack = s.stack := rfl
@[simp] theorem State.setPc_dt (w : Word) : (s.setPc w).dt = s.dt := rfl
@[simp] theorem State.setPc_st (w : Word) : (s.setPc w).st = s.st := rfl
@[simp] theorem State.setPc_fb (w : Word) : (s.setPc w).fb = s.fb := rfl
@[simp] theorem State.setPc_kd (w : Word) : (s.setPc w).kd = s.kd := rfl
@[simp] theorem State.setPc_kr (w : Word) : (s.setPc w).kr = s.kr := rfl
@[simp] theorem State.setPc_quit (w : Word) : (s.setPc w).quit = s.quit := rfl
@[simp] theorem State.setPc_slot (w : Word) : (s.setPc w).slot = s.slot := rfl
@[simp] theorem State.setPc_batchEnd (w : Word) : (s.setPc w).batchEnd = s.batchEnd := rfl
@[simp] theorem State.setPc_halted (w : Word) : (s.setPc w).halted = s.halted := rfl
@[simp] theorem State.setPc_fault (w : Word) : (s.setPc w).fault = s.fault := rfl
@[simp] theorem State.setPc_ended (w : Word) : (s.setPc w).ended = s.ended := rfl
@[simp] theorem State.setPc_inTick (w : Word) : (s.setPc w).inTick = s.inTick := rfl
@[simp] theorem State.setPc_ins (w : Word) : (s.setPc w).ins = s.ins := rfl
@[simp] theorem State.setPc_out (w : Word) : (s.setPc w).out = s.out := rfl
@[simp] theorem State.setPc_host (w : Word) : (s.setPc w).host = s.host := rfl

@[simp] theorem State.setDt_cfg (b : Byte) : (s.setDt b).cfg = s.cfg := rfl
@[simp] theorem State.setDt_mem (b : Byte) : (s.setDt b).mem = s.mem := rfl
@[simp] theorem State.setDt_v (b : Byte) : (s.setDt b).v = s.v := rfl
@[simp] theorem State.setDt_i (b : Byte) : (s.setDt b).i = s.i := rfl
@[simp] theorem State.setDt_pc (b : Byte) : (s.setDt b).pc = s.pc := rfl
@[simp] theorem State.setDt_stack (b : Byte) : (s.setDt b).stack = s.stack := rfl
@[simp] theorem State.setDt_dt (b : Byte) : (s.setDt b).dt = b := rfl
@[simp] theorem State.setDt_st (b : Byte) : (s.setDt b).st = s.st := rfl
@[simp] theorem State.setDt_fb (b : Byte) : (s.setDt b).fb = s.fb := rfl
@[simp] theorem State.setDt_kd (b : Byte) : (s.setDt b).kd = s.kd := rfl
@[simp] theorem State.setDt_kr (b : Byte) : (s.setDt b).kr = s.kr := rfl
@[simp] theorem State.setDt_quit (b : Byte) : (s.setDt b).quit = s.quit := rfl
@[simp] theorem State.setDt_slot (b : Byte) : (s.setDt b).slot = s.slot := rfl
@[simp] theorem State.setDt_batchEnd (b : Byte) : (s.setDt b).batchEnd = s.batchEnd := rfl
@[simp] theorem State.setDt_halted (b : Byte) : (s.setDt b).halted = s.halted := rfl
@[simp] theorem State.setDt_fault (b : Byte) : (s.setDt b).fault = s.fault := rfl
@[simp] theorem State.setDt_ended (b : Byte) : (s.setDt b).ended = s.ended := rfl
@[simp] theorem State.setDt_inTick (b : Byte) : (s.setDt b).inTick = s.inTick := rfl
@[simp] theorem State.setDt_ins (b : Byte) : (s.setDt b).ins = s.ins := rfl
@[simp] theorem State.setDt_out (b : Byte) : (s.setDt b).out = s.out := rfl
@[simp] theorem State.setDt_host (b : Byte) : (s.setDt b).host = s.host := rfl

@[simp] theorem State.poke_cfg (a : Nat) (b : Byte) : (s.poke a b).cfg = s.cfg := rfl
@[simp] theorem State.poke_mem (a : Nat) (b : Byte) : (s.poke a b).mem = memSet s.cfg s.mem a b := rfl
@[simp] theorem State.poke_v (a : Nat) (b : Byte) : (s.poke a b).v = s.v := rfl
@[simp] theorem State.poke_i (a : Nat) (b : Byte) : (s.poke a b).i = s.i := rfl
@[simp] theorem State.poke_pc (a : Nat) (b : Byte) : (s.poke a b).pc = s.pc := rfl
@[simp] theorem State.poke_stack (a : Nat) (b : Byte) : (s.poke a b).stack = s.stack := rfl
@[simp] theorem State.poke_dt (a : Nat) (b : Byte) : (s.poke a b).dt = s.dt := rfl
@[simp] theorem State.poke_st (a : Nat) (b : Byte) : (s.poke a b).st = s.st := rfl
@[simp] theorem State.poke_fb (a : Nat) (b : Byte) : (s.poke a b).fb = s.fb := rfl
@[simp] theorem State.poke_kd (a : Nat) (b : Byte) : (s.poke a b).kd = s.kd := rfl
@[simp] theorem State.poke_kr (a : Nat) (b : Byte) : (s.poke a b).kr = s.kr := rfl
@[simp] theorem State.poke_quit (a : Nat) (b : Byte) : (s.poke a b).quit = s.quit := rfl
@[simp] theorem State.poke_slot (a : Nat) (b : Byte) : (s.poke a b).slot = s.slot := rfl
@[simp] theorem State.poke_batchEnd (a : Nat) (b : Byte) : (s.poke a b).batchEnd = s.batchEnd := rfl
@[simp] theorem State.poke_halted (a : Nat) (b : Byte) : (s.poke a b).halted = s.halted := rfl
@[simp] theorem State.poke_fault (a : Nat) (b : Byte) : (s.poke a b).fault = s.fault := rfl
@[simp] theorem State.poke_ended (a : Nat) (b : Byte) : (s.poke a b).ended = s.ended := rfl
@[simp] theorem State.poke_inTick (a : Nat) (b : Byte) : (s.poke a b).inTick = s.inTick := rfl
@[simp] theorem State.poke_ins (a : Nat) (b : Byte) : (s.poke a b).ins = s.ins := rfl
@[simp] theorem State.poke_out (a : Nat) (b : Byte) : (s.poke a b).out = s.out := rfl
@[simp] theorem State.poke_host (a : Nat) (b : Byte) : (s.poke a b).host = s.host := rfl

@[simp] theorem State.raise_cfg (k : FaultKind) (f : FaultInfo) (a w : Word) : (s.raise k f a w).cfg = s.cfg := rfl
@[simp] theorem State.raise_mem (k : FaultKind) (f : FaultInfo) (a w : Word) : (s.raise k f a w).mem = s.mem := rfl
@[simp] theorem State.raise_v (k : FaultKind) (f : FaultInfo) (a w : Word) : (s.raise k f a w).v = s.v := rfl
@[simp] theorem State.raise_i (k : FaultKind) (f : FaultInfo) (a w : Word) : (s.raise k f a w).i = s.i := rfl
@[simp] theorem State.raise_pc (k : FaultKind) (f : FaultInfo) (a w : Word) : (s.raise k f a w).pc = s.pc := rfl
@[simp] theorem State.raise_stack (k : FaultKind) (f : FaultInfo) (a w : Word) :
    (s.raise k f a w).stack = s.stack := rfl
@[simp] theorem State.raise_dt (k : FaultKind) (f : FaultInfo) (a w : Word) : (s.raise k f a w).dt = s.dt := rfl
@[simp] theorem State.raise_st (k : FaultKind) (f : FaultInfo) (a w : Word) : (s.raise k f a w).st = s.st := rfl
@[simp] theorem State.raise_fb (k : FaultKind) (f : FaultInfo) (a w : Word) : (s.raise k f a w).fb = s.fb := rfl
@[simp] theorem State.raise_kd (k : FaultKind) (f : FaultInfo) (a w : Word) : (s.raise k f a w).kd = s.kd := rfl
@[simp] theorem State.raise_kr (k : FaultKind) (f : FaultInfo) (a w : Word) : (s.raise k f a w).kr = s.kr := rfl
@[simp] theorem State.raise_quit (k : FaultKind) (f : FaultInfo) (a w : Word) :
    (s.raise k f a w).quit = s.quit := rfl
@[simp] theorem State.raise_slot (k : FaultKind) (f : FaultInfo) (a w : Word) :
    (s.raise k f a w).slot = s.slot := rfl
@[simp] theorem State.raise_batchEnd (k : FaultKind) (f : FaultInfo) (a w : Word) :
    (s.raise k f a w).batchEnd = s.batchEnd := rfl
@[simp] theorem State.raise_halted (k : FaultKind) (f : FaultInfo) (a w : Word) :
    (s.raise k f a w).halted = true := rfl
@[simp] theorem State.raise_fault (k : FaultKind) (f : FaultInfo) (a w : Word) :
    (s.raise k f a w).fault = ⟨k, a, w, f⟩ := rfl
@[simp] theorem State.raise_ended (k : FaultKind) (f : FaultInfo) (a w : Word) :
    (s.raise k f a w).ended = s.ended := rfl
@[simp] theorem State.raise_inTick (k : FaultKind) (f : FaultInfo) (a w : Word) :
    (s.raise k f a w).inTick = s.inTick := rfl
@[simp] theorem State.raise_ins (k : FaultKind) (f : FaultInfo) (a w : Word) : (s.raise k f a w).ins = s.ins := rfl
@[simp] theorem State.raise_out (k : FaultKind) (f : FaultInfo) (a w : Word) : (s.raise k f a w).out = s.out := rfl
@[simp] theorem State.raise_host (k : FaultKind) (f : FaultInfo) (a w : Word) :
    (s.raise k f a w).host = s.host := rfl

@[simp] theorem State.raiseIns_cfg (k : FaultKind) (f : FaultInfo) : (s.raiseIns k f).cfg = s.cfg := rfl
@[simp] theorem State.raiseIns_mem (k : FaultKind) (f : FaultInfo) : (s.raiseIns k f).mem = s.mem := rfl
@[simp] theorem State.raiseIns_v (k : FaultKind) (f : FaultInfo) : (s.raiseIns k f).v = s.v := rfl
@[simp] theorem State.raiseIns_i (k : FaultKind) (f : FaultInfo) : (s.raiseIns k f).i = s.i := rfl
@[simp] theorem State.raiseIns_pc (k : FaultKind) (f : FaultInfo) : (s.raiseIns k f).pc = s.pc := rfl
@[simp] theorem State.raiseIns_stack (k : FaultKind) (f : FaultInfo) : (s.raiseIns k f).stack = s.stack := rfl
@[simp] theorem State.raiseIns_dt (k : FaultKind) (f : FaultInfo) : (s.raiseIns k f).dt = s.dt := rfl
@[simp] theorem State.raiseIns_st (k : FaultKind) (f : FaultInfo) : (s.raiseIns k f).st = s.st := rfl
@[simp] theorem State.raiseIns_fb (k : FaultKind) (f : FaultInfo) : (s.raiseIns k f).fb = s.fb := rfl
@[simp] theorem State.raiseIns_kd (k : FaultKind) (f : FaultInfo) : (s.raiseIns k f).kd = s.kd := rfl
@[simp] theorem State.raiseIns_kr (k : FaultKind) (f : FaultInfo) : (s.raiseIns k f).kr = s.kr := rfl
@[simp] theorem State.raiseIns_quit (k : FaultKind) (f : FaultInfo) : (s.raiseIns k f).quit = s.quit := rfl
@[simp] theorem State.raiseIns_slot (k : FaultKind) (f : FaultInfo) : (s.raiseIns k f).slot = s.slot := rfl
@[simp] theorem State.raiseIns_batchEnd (k : FaultKind) (f : FaultInfo) : (s.raiseIns k f).batchEnd = s.batchEnd := rfl
@[simp] theorem State.raiseIns_halted (k : FaultKind) (f : FaultInfo) : (s.raiseIns k f).halted = true := rfl
@[simp] theorem State.raiseIns_fault (k : FaultKind) (f : FaultInfo) :
    (s.raiseIns k f).fault = ⟨k, s.ins.addr, s.ins.word, f⟩ := rfl
@[simp] theorem State.raiseIns_ended (k : FaultKind) (f : FaultInfo) : (s.raiseIns k f).ended = s.ended := rfl
@[simp] theorem State.raiseIns_inTick (k : FaultKind) (f : FaultInfo) : (s.raiseIns k f).inTick = s.inTick := rfl
@[simp] theorem State.raiseIns_ins (k : FaultKind) (f : FaultInfo) : (s.raiseIns k f).ins = s.ins := rfl
@[simp] theorem State.raiseIns_out (k : FaultKind) (f : FaultInfo) : (s.raiseIns k f).out = s.out := rfl
@[simp] theorem State.raiseIns_host (k : FaultKind) (f : FaultInfo) : (s.raiseIns k f).host = s.host := rfl

@[simp] theorem State.push_cfg (w : Word) : (s.push w).cfg = s.cfg := rfl
@[simp] theorem State.push_mem (w : Word) : (s.push w).mem = s.mem := rfl
@[simp] theorem State.push_v (w : Word) : (s.push w).v = s.v := rfl
@[simp] theorem State.push_i (w : Word) : (s.push w).i = s.i := rfl
@[simp] theorem State.push_pc (w : Word) : (s.push w).pc = s.pc := rfl
@[simp] theorem State.push_stack (w : Word) : (s.push w).stack = s.stack ++ [w] := rfl
@[simp] theorem State.push_dt (w : Word) : (s.push w).dt = s.dt := rfl
@[simp] theorem State.push_st (w : Word) : (s.push w).st = s.st := rfl
@[simp] theorem State.push_fb (w : Word) : (s.push w).fb = s.fb := rfl
@[simp] theorem State.push_kd (w : Word) : (s.push w).kd = s.kd := rfl
@[simp] theorem State.push_kr (w : Word) : (s.push w).kr = s.kr := rfl
@[simp] theorem State.push_quit (w : Word) : (s.push w).quit = s.quit := rfl
@[simp] theorem State.push_slot (w : Word) : (s.push w).slot = s.slot := rfl
@[simp] theorem State.push_batchEnd (w : Word) : (s.push w).batchEnd = s.batchEnd := rfl
@[simp] theorem State.push_halted (w : Word) : (s.push w).halted = s.halted := rfl
@[simp] theorem State.push_fault (w : Word) : (s.push w).fault = s.fault := rfl
@[simp] theorem State.push_ended (w : Word) : (s.push w).ended = s.ended := rfl
@[simp] theorem State.push_inTick (w : Word) : (s.push w).inTick = s.inTick := rfl
@[simp] theorem State.push_ins (w : Word) : (s.push w).ins = s.ins := rfl
@[simp] theorem State.push_out (w : Word) : (s.push w).out = s.out := rfl
@[simp] theorem State.push_host (w : Word) : (s.push w).host = s.host := rfl

@[simp] theorem State.lightPixel_cfg (r : RowIx) (c : ColIx) : (s.lightPixel r c).cfg = s.cfg := rfl
@[simp] theorem State.lightPixel_mem (r : RowIx) (c : ColIx) : (s.lightPixel r c).mem = s.mem := rfl
@[simp] theorem State.lightPixel_v (r : RowIx) (c : ColIx) : (s.lightPixel r c).v = s.v := rfl
@[simp] theorem State.lightPixel_i (r : RowIx) (c : ColIx) : (s.lightPixel r c).i = s.i := rfl
@[simp] theorem State.lightPixel_pc (r : RowIx) (c : ColIx) : (s.lightPixel r c).pc = s.pc := rfl
@[simp] theorem State.lightPixel_stack (r : RowIx) (c : ColIx) : (s.lightPixel r c).stack = s.stack := rfl
@[simp] theorem State.lightPixel_dt (r : RowIx) (c : ColIx) : (s.lightPixel r c).dt = s.dt := rfl
@[simp] theorem State.lightPixel_st (r : RowIx) (c : ColIx) : (s.lightPixel r c).st = s.st := rfl
@[simp] theorem State.lightPixel_fb (r : RowIx) (c : ColIx) :
    (s.lightPixel r c).fb = s.fb.set r.val (s.fb[r.val] ||| columnMask c) := rfl
@[simp] theorem State.lightPixel_kd (r : RowIx) (c : ColIx) : (s.lightPixel r c).kd = s.kd := rfl
@[simp] theorem State.lightPixel_kr (r : RowIx) (c : ColIx) : (s.lightPixel r c).kr = s.kr := rfl
@[simp] theorem State.lightPixel_quit (r : RowIx) (c : ColIx) : (s.lightPixel r c).quit = s.quit := rfl
@[simp] theorem State.lightPixel_slot (r : RowIx) (c : ColIx) : (s.lightPixel r c).slot = s.slot := rfl
@[simp] theorem State.lightPixel_batchEnd (r : RowIx) (c : ColIx) : (s.lightPixel r c).batchEnd = s.batchEnd := rfl
@[simp] theorem State.lightPixel_halted (r : RowIx) (c : ColIx) : (s.lightPixel r c).halted = s.halted := rfl
@[simp] theorem State.lightPixel_fault (r : RowIx) (c : ColIx) : (s.lightPixel r c).fault = s.fault := rfl
@[simp] theorem State.lightPixel_ended (r : RowIx) (c : ColIx) : (s.lightPixel r c).ended = s.ended := rfl
@[simp] theorem State.lightPixel_inTick (r : RowIx) (c : ColIx) : (s.lightPixel r c).inTick = s.inTick := rfl
@[simp] theorem State.lightPixel_ins (r : RowIx) (c : ColIx) : (s.lightPixel r c).ins = s.ins := rfl
@[simp] theorem State.lightPixel_out (r : RowIx) (c : ColIx) : (s.lightPixel r c).out = s.out := rfl
@[simp] theorem State.lightPixel_host (r : RowIx) (c : ColIx) : (s.lightPixel r c).host = s.host := rfl

@[simp] theorem State.clearPixel_cfg (r : RowIx) (c : ColIx) : (s.clearPixel r c).cfg = s.cfg := rfl
@[simp] theorem State.clearPixel_mem (r : RowIx) (c : ColIx) : (s.clearPixel r c).mem = s.mem := rfl
@[simp] theorem State.clearPixel_v (r : RowIx) (c : ColIx) : (s.clearPixel r c).v = s.v := rfl
@[simp] theorem State.clearPixel_i (r : RowIx) (c : ColIx) : (s.clearPixel r c).i = s.i := rfl
@[simp] theorem State.clearPixel_pc (r : RowIx) (c : ColIx) : (s.clearPixel r c).pc = s.pc := rfl
@[simp] theorem State.clearPixel_stack (r : RowIx) (c : ColIx) : (s.clearPixel r c).stack = s.stack := rfl
@[simp] theorem State.clearPixel_dt (r : RowIx) (c : ColIx) : (s.clearPixel r c).dt = s.dt := rfl
@[simp] theorem State.clearPixel_st (r : RowIx) (c : ColIx) : (s.clearPixel r c).st = s.st := rfl
@[simp] theorem State.clearPixel_fb (r : RowIx) (c : ColIx) :
    (s.clearPixel r c).fb = s.fb.set r.val (s.fb[r.val] &&& ~~~ columnMask c) := rfl
@[simp] theorem State.clearPixel_kd (r : RowIx) (c : ColIx) : (s.clearPixel r c).kd = s.kd := rfl
@[simp] theorem State.clearPixel_kr (r : RowIx) (c : ColIx) : (s.clearPixel r c).kr = s.kr := rfl
@[simp] theorem State.clearPixel_quit (r : RowIx) (c : ColIx) : (s.clearPixel r c).quit = s.quit := rfl
@[simp] theorem State.clearPixel_slot (r : RowIx) (c : ColIx) : (s.clearPixel r c).slot = s.slot := rfl
@[simp] theorem State.clearPixel_batchEnd (r : RowIx) (c : ColIx) : (s.clearPixel r c).batchEnd = s.batchEnd := rfl
@[simp] theorem State.clearPixel_halted (r : RowIx) (c : ColIx) : (s.clearPixel r c).halted = s.halted := rfl
@[simp] theorem State.clearPixel_fault (r : RowIx) (c : ColIx) : (s.clearPixel r c).fault = s.fault := rfl
@[simp] theorem State.clearPixel_ended (r : RowIx) (c : ColIx) : (s.clearPixel r c).ended = s.ended := rfl
@[simp] theorem State.clearPixel_inTick (r : RowIx) (c : ColIx) : (s.clearPixel r c).inTick = s.inTick := rfl
@[simp] theorem State.clearPixel_ins (r : RowIx) (c : ColIx) : (s.clearPixel r c).ins = s.ins := rfl
@[simp] theorem State.clearPixel_out (r : RowIx) (c : ColIx) : (s.clearPixel r c).out = s.out := rfl
@[simp] theorem State.clearPixel_host (r : RowIx) (c : ColIx) : (s.clearPixel r c).host = s.host := rfl

@[simp] theorem State.clearScreen_cfg : s.clearScreen.cfg = s.cfg := rfl
@[simp] theorem State.clearScreen_mem : s.clearScreen.mem = s.mem := rfl
@[simp] theorem State.clearScreen_v : s.clearScreen.v = s.v := rfl
@[simp] theorem State.clearScreen_i : s.clearScreen.i = s.i := rfl
@[simp] theorem State.clearScreen_pc : s.clearScreen.pc = s.pc := rfl
@[simp] theorem State.clearScreen_stack : s.clearScreen.stack = s.stack := rfl
@[simp] theorem State.clearScreen_dt : s.clearScreen.dt = s.dt := rfl
@[simp] theorem State.clearScreen_st : s.clearScreen.st = s.st := rfl
@[simp] theorem State.clearScreen_fb : s.clearScreen.fb = blankFrame := rfl
@[simp] theorem State.clearScreen_kd : s.clearScreen.kd = s.kd := rfl
@[simp] theorem State.clearScreen_kr : s.clearScreen.kr = s.kr := rfl
@[simp] theorem State.clearScreen_quit : s.clearScreen.quit = s.quit := rfl
@[simp] theorem State.clearScreen_slot : s.clearScreen.slot = s.slot := rfl
@[simp] theorem State.clearScreen_batchEnd : s.clearScreen.batchEnd = s.batchEnd := rfl
@[simp] theorem State.clearScreen_halted : s.clearScreen.halted = s.halted := rfl
@[simp] theorem State.clearScreen_fault : s.clearScreen.fault = s.fault := rfl
@[simp] theorem State.clearScreen_ended : s.clearScreen.ended = s.ended := rfl
@[simp] theorem State.clearScreen_inTick : s.clearScreen.inTick = s.inTick := rfl
@[simp] theorem State.clearScreen_ins : s.clearScreen.ins = s.ins := rfl
@[simp] theorem State.clearScreen_out : s.clearScreen.out = s.out := rfl
@[simp] theorem State.clearScreen_host : s.clearScreen.host = s.host := rfl

@[simp] theorem State.takeFlush_cfg : s.takeFlush.cfg = s.cfg := rfl
@[simp] theorem State.takeFlush_mem : s.takeFlush.mem = s.mem := rfl
@[simp] theorem State.takeFlush_v : s.takeFlush.v = s.v := rfl
@[simp] theorem State.takeFlush_i : s.takeFlush.i = s.i := rfl
@[simp] theorem State.takeFlush_pc : s.takeFlush.pc = s.pc := rfl
@[simp] theorem State.takeFlush_stack : s.takeFlush.stack = s.stack := rfl
@[simp] theorem State.takeFlush_dt : s.takeFlush.dt = s.dt := rfl
@[simp] theorem State.takeFlush_st : s.takeFlush.st = s.st := rfl
@[simp] theorem State.takeFlush_fb : s.takeFlush.fb = s.fb := rfl
@[simp] theorem State.takeFlush_kd : s.takeFlush.kd = s.kd := rfl
@[simp] theorem State.takeFlush_kr : s.takeFlush.kr = s.kr := rfl
@[simp] theorem State.takeFlush_quit : s.takeFlush.quit = s.quit := rfl
@[simp] theorem State.takeFlush_slot : s.takeFlush.slot = s.slot := rfl
@[simp] theorem State.takeFlush_batchEnd : s.takeFlush.batchEnd = s.batchEnd := rfl
@[simp] theorem State.takeFlush_halted : s.takeFlush.halted = s.halted := rfl
@[simp] theorem State.takeFlush_fault : s.takeFlush.fault = s.fault := rfl
@[simp] theorem State.takeFlush_ended : s.takeFlush.ended = s.ended := rfl
@[simp] theorem State.takeFlush_inTick : s.takeFlush.inTick = s.inTick := rfl
@[simp] theorem State.takeFlush_ins : s.takeFlush.ins = s.ins := rfl
@[simp] theorem State.takeFlush_out : s.takeFlush.out = s.out := rfl
@[simp] theorem State.takeFlush_host :
    s.takeFlush.host = { s.host with flushes := s.host.flushes.tail, asked := s.host.asked + 1 } := rfl

@[simp] theorem State.takePoll_cfg : s.takePoll.cfg = s.cfg := rfl
@[simp] theorem State.takePoll_mem : s.takePoll.mem = s.mem := rfl
@[simp] theorem State.takePoll_v : s.takePoll.v = s.v := rfl
@[simp] theorem State.takePoll_i : s.takePoll.i = s.i := rfl
@[simp] theorem State.takePoll_pc : s.takePoll.pc = s.pc := rfl
@[simp] theorem State.takePoll_stack : s.takePoll.stack = s.stack := rfl
@[simp] theorem State.takePoll_dt : s.takePoll.dt = s.dt := rfl
@[simp] theorem State.takePoll_st : s.takePoll.st = s.st := rfl
@[simp] theorem State.takePoll_fb : s.takePoll.fb = s.fb := rfl
@[simp] theorem State.takePoll_kd : s.takePoll.kd = s.kd := rfl
@[simp] theorem State.takePoll_kr : s.takePoll.kr = s.kr := rfl
@[simp] theorem State.takePoll_quit : s.takePoll.quit = s.quit := rfl
@[simp] theorem State.takePoll_slot : s.takePoll.slot = s.slot := rfl
@[simp] theorem State.takePoll_batchEnd : s.takePoll.batchEnd = s.batchEnd := rfl
@[simp] theorem State.takePoll_halted : s.takePoll.halted = s.halted := rfl
@[simp] theorem State.takePoll_fault : s.takePoll.fault = s.fault := rfl
@[simp] theorem State.takePoll_ended : s.takePoll.ended = s.ended := rfl
@[simp] theorem State.takePoll_inTick : s.takePoll.inTick = s.inTick := rfl
@[simp] theorem State.takePoll_ins : s.takePoll.ins = s.ins := rfl
@[simp] theorem State.takePoll_out : s.takePoll.out = s.out := rfl
@[simp] theorem State.takePoll_host :
    s.takePoll.host = { s.host with polls := s.host.polls.tail, asked := s.host.asked + 1 } := rfl

@[simp] theorem State.takeAudio_cfg : s.takeAudio.cfg = s.cfg := rfl
@[simp] theorem State.takeAudio_mem : s.takeAudio.mem = s.mem := rfl
@[simp] theorem State.takeAudio_v : s.takeAudio.v = s.v := rfl
@[simp] theorem State.takeAudio_i : s.takeAudio.i = s.i := rfl
@[simp] theorem State.takeAudio_pc : s.takeAudio.pc = s.pc := rfl
@[simp] theorem State.takeAudio_stack : s.takeAudio.stack = s.stack := rfl
@[simp] theorem State.takeAudio_dt : s.takeAudio.dt = s.dt := rfl
@[simp] theorem State.takeAudio_st : s.takeAudio.st = s.st := rfl
@[simp] theorem State.takeAudio_fb : s.takeAudio.fb = s.fb := rfl
@[simp] theorem State.takeAudio_kd : s.takeAudio.kd = s.kd := rfl
@[simp] theorem State.takeAudio_kr : s.takeAudio.kr = s.kr := rfl
@[simp] theorem State.takeAudio_quit : s.takeAudio.quit = s.quit := rfl
@[simp] theorem State.takeAudio_slot : s.takeAudio.slot = s.slot := rfl
@[simp] theorem State.takeAudio_batchEnd : s.takeAudio.batchEnd = s.batchEnd := rfl
@[simp] theorem State.takeAudio_halted : s.takeAudio.halted = s.halted := rfl
@[simp] theorem State.takeAudio_fault : s.takeAudio.fault = s.fault := rfl
@[simp] theorem State.takeAudio_ended : s.takeAudio.ended = s.ended := rfl
@[simp] theorem State.takeAudio_inTick : s.takeAudio.inTick = s.inTick := rfl
@[simp] theorem State.takeAudio_ins : s.takeAudio.ins = s.ins := rfl
@[simp] theorem State.takeAudio_out : s.takeAudio.out = s.out := rfl
@[simp] theorem State.takeAudio_host :
    s.takeAudio.host = { s.host with audios := s.host.audios.tail, asked := s.host.asked + 1 } := rfl

@[simp] theorem State.takeDraw_cfg : s.takeDraw.cfg = s.cfg := rfl
@[simp] theorem State.takeDraw_mem : s.takeDraw.mem = s.mem := rfl
@[simp] theorem State.takeDraw_v : s.takeDraw.v = s.v := rfl
@[simp] theorem State.takeDraw_i : s.takeDraw.i = s.i := rfl
@[simp] theorem State.takeDraw_pc : s.takeDraw.pc = s.pc := rfl
@[simp] theorem State.takeDraw_stack : s.takeDraw.stack = s.stack := rfl
@[simp] theorem State.takeDraw_dt : s.takeDraw.dt = s.dt := rfl
@[simp] theorem State.takeDraw_st : s.takeDraw.st = s.st := rfl
@[simp] theorem State.takeDraw_fb : s.takeDraw.fb = s.fb := rfl
@[simp] theorem State.takeDraw_kd : s.takeDraw.kd = s.kd := rfl
@[simp] theorem State.takeDraw_kr : s.takeDraw.kr = s.kr := rfl
@[simp] theorem State.takeDraw_quit : s.takeDraw.quit = s.quit := rfl
@[simp] theorem State.takeDraw_slot : s.takeDraw.slot = s.slot := rfl
@[simp] theorem State.takeDraw_batchEnd : s.takeDraw.batchEnd = s.batchEnd := rfl
@[simp] theorem State.takeDraw_halted : s.takeDraw.halted = s.halted := rfl
@[simp] theorem State.takeDraw_fault : s.takeDraw.fault = s.fault := rfl
@[simp] theorem State.takeDraw_ended : s.takeDraw.ended = s.ended := rfl
@[simp] theorem State.takeDraw_inTick : s.takeDraw.inTick = s.inTick := rfl
@[simp] theorem State.takeDraw_ins : s.takeDraw.ins = s.ins := rfl
@[simp] theorem State.takeDraw_out : s.takeDraw.out = s.out := rfl
@[simp] theorem State.takeDraw_host :
    s.takeDraw.host = { s.host with draws := s.host.draws.tail, asked := s.host.asked + 1 } := rfl

@[simp] theorem State.accept_cfg (r : Report) : (s.accept r).cfg = s.cfg := rfl
@[simp] theorem State.accept_mem (r : Report) : (s.accept r).mem = s.mem := rfl
@[simp] theorem State.accept_v (r : Report) : (s.accept r).v = s.v := rfl
@[simp] theorem State.accept_i (r : Report) : (s.accept r).i = s.i := rfl
@[simp] theorem State.accept_pc (r : Report) : (s.accept r).pc = s.pc := rfl
@[simp] theorem State.accept_stack (r : Report) : (s.accept r).stack = s.stack := rfl
@[simp] theorem State.accept_dt (r : Report) : (s.accept r).dt = s.dt := rfl
@[simp] theorem State.accept_st (r : Report) : (s.accept r).st = s.st := rfl
@[simp] theorem State.accept_fb (r : Report) : (s.accept r).fb = s.fb := rfl
@[simp] theorem State.accept_kd (r : Report) : (s.accept r).kd = r.kd := rfl
@[simp] theorem State.accept_kr (r : Report) : (s.accept r).kr = r.kr := rfl
@[simp] theorem State.accept_quit (r : Report) : (s.accept r).quit = (s.quit || r.quitReq) := rfl
@[simp] theorem State.accept_slot (r : Report) : (s.accept r).slot = s.slot := rfl
@[simp] theorem State.accept_batchEnd (r : Report) : (s.accept r).batchEnd = s.batchEnd := rfl
@[simp] theorem State.accept_halted (r : Report) : (s.accept r).halted = s.halted := rfl
@[simp] theorem State.accept_fault (r : Report) : (s.accept r).fault = s.fault := rfl
@[simp] theorem State.accept_ended (r : Report) : (s.accept r).ended = s.ended := rfl
@[simp] theorem State.accept_inTick (r : Report) : (s.accept r).inTick = s.inTick := rfl
@[simp] theorem State.accept_ins (r : Report) : (s.accept r).ins = s.ins := rfl
@[simp] theorem State.accept_out (r : Report) : (s.accept r).out = s.out := rfl
@[simp] theorem State.accept_host (r : Report) : (s.accept r).host = s.host := rfl

@[simp] theorem State.sendFrame_cfg : s.sendFrame.cfg = s.cfg := rfl
@[simp] theorem State.sendFrame_mem : s.sendFrame.mem = s.mem := rfl
@[simp] theorem State.sendFrame_v : s.sendFrame.v = s.v := rfl
@[simp] theorem State.sendFrame_i : s.sendFrame.i = s.i := rfl
@[simp] theorem State.sendFrame_pc : s.sendFrame.pc = s.pc := rfl
@[simp] theorem State.sendFrame_stack : s.sendFrame.stack = s.stack := rfl
@[simp] theorem State.sendFrame_dt : s.sendFrame.dt = s.dt := rfl
@[simp] theorem State.sendFrame_st : s.sendFrame.st = s.st := rfl
@[simp] theorem State.sendFrame_fb : s.sendFrame.fb = s.fb := rfl
@[simp] theorem State.sendFrame_kd : s.sendFrame.kd = s.kd := rfl
@[simp] theorem State.sendFrame_kr : s.sendFrame.kr = s.kr := rfl
@[simp] theorem State.sendFrame_quit : s.sendFrame.quit = s.quit := rfl
@[simp] theorem State.sendFrame_slot : s.sendFrame.slot = s.slot := rfl
@[simp] theorem State.sendFrame_batchEnd : s.sendFrame.batchEnd = s.batchEnd := rfl
@[simp] theorem State.sendFrame_halted : s.sendFrame.halted = s.halted := rfl
@[simp] theorem State.sendFrame_fault : s.sendFrame.fault = s.fault := rfl
@[simp] theorem State.sendFrame_ended : s.sendFrame.ended = s.ended := rfl
@[simp] theorem State.sendFrame_inTick : s.sendFrame.inTick = s.inTick := rfl
@[simp] theorem State.sendFrame_ins : s.sendFrame.ins = s.ins := rfl
@[simp] theorem State.sendFrame_out : s.sendFrame.out = ⟨s.fb, s.out.count + 1⟩ := rfl
@[simp] theorem State.sendFrame_host : s.sendFrame.host = s.host := rfl

@[simp] theorem State.endBatch_cfg : s.endBatch.cfg = s.cfg := rfl
@[simp] theorem State.endBatch_mem : s.endBatch.mem = s.mem := rfl
@[simp] theorem State.endBatch_v : s.endBatch.v = s.v := rfl
@[simp] theorem State.endBatch_i : s.endBatch.i = s.i := rfl
@[simp] theorem State.endBatch_pc : s.endBatch.pc = s.pc := rfl
@[simp] theorem State.endBatch_stack : s.endBatch.stack = s.stack := rfl
@[simp] theorem State.endBatch_dt : s.endBatch.dt = s.dt := rfl
@[simp] theorem State.endBatch_st : s.endBatch.st = s.st := rfl
@[simp] theorem State.endBatch_fb : s.endBatch.fb = s.fb := rfl
@[simp] theorem State.endBatch_kd : s.endBatch.kd = s.kd := rfl
@[simp] theorem State.endBatch_kr : s.endBatch.kr = s.kr := rfl
@[simp] theorem State.endBatch_quit : s.endBatch.quit = s.quit := rfl
@[simp] theorem State.endBatch_slot : s.endBatch.slot = s.slot := rfl
@[simp] theorem State.endBatch_batchEnd : s.endBatch.batchEnd = true := rfl
@[simp] theorem State.endBatch_halted : s.endBatch.halted = s.halted := rfl
@[simp] theorem State.endBatch_fault : s.endBatch.fault = s.fault := rfl
@[simp] theorem State.endBatch_ended : s.endBatch.ended = s.ended := rfl
@[simp] theorem State.endBatch_inTick : s.endBatch.inTick = s.inTick := rfl
@[simp] theorem State.endBatch_ins : s.endBatch.ins = s.ins := rfl
@[simp] theorem State.endBatch_out : s.endBatch.out = s.out := rfl
@[simp] theorem State.endBatch_host : s.endBatch.host = s.host := rfl

@[simp] theorem State.advance_cfg (w : Word) : (s.advance w).cfg = s.cfg := rfl
@[simp] theorem State.advance_mem (w : Word) : (s.advance w).mem = s.mem := rfl
@[simp] theorem State.advance_v (w : Word) : (s.advance w).v = s.v := rfl
@[simp] theorem State.advance_i (w : Word) : (s.advance w).i = s.i := rfl
@[simp] theorem State.advance_pc (w : Word) : (s.advance w).pc = s.pc + 2 := rfl
@[simp] theorem State.advance_stack (w : Word) : (s.advance w).stack = s.stack := rfl
@[simp] theorem State.advance_dt (w : Word) : (s.advance w).dt = s.dt := rfl
@[simp] theorem State.advance_st (w : Word) : (s.advance w).st = s.st := rfl
@[simp] theorem State.advance_fb (w : Word) : (s.advance w).fb = s.fb := rfl
@[simp] theorem State.advance_kd (w : Word) : (s.advance w).kd = s.kd := rfl
@[simp] theorem State.advance_kr (w : Word) : (s.advance w).kr = s.kr := rfl
@[simp] theorem State.advance_quit (w : Word) : (s.advance w).quit = s.quit := rfl
@[simp] theorem State.advance_slot (w : Word) : (s.advance w).slot = s.slot := rfl
@[simp] theorem State.advance_batchEnd (w : Word) : (s.advance w).batchEnd = s.batchEnd := rfl
@[simp] theorem State.advance_halted (w : Word) : (s.advance w).halted = s.halted := rfl
@[simp] theorem State.advance_fault (w : Word) : (s.advance w).fault = s.fault := rfl
@[simp] theorem State.advance_ended (w : Word) : (s.advance w).ended = s.ended := rfl
@[simp] theorem State.advance_inTick (w : Word) : (s.advance w).inTick = s.inTick := rfl
@[simp] theorem State.advance_ins (w : Word) : (s.advance w).ins = ⟨s.pc, w⟩ := rfl
@[simp] theorem State.advance_out (w : Word) : (s.advance w).out = s.out := rfl
@[simp] theorem State.advance_host (w : Word) : (s.advance w).host = s.host := rfl

@[simp] theorem State.countSlot_cfg : s.countSlot.cfg = s.cfg := rfl
@[simp] theorem State.countSlot_mem : s.countSlot.mem = s.mem := rfl
@[simp] theorem State.countSlot_v : s.countSlot.v = s.v := rfl
@[simp] theorem State.countSlot_i : s.countSlot.i = s.i := rfl
@[simp] theorem State.countSlot_pc : s.countSlot.pc = s.pc := rfl
@[simp] theorem State.countSlot_stack : s.countSlot.stack = s.stack := rfl
@[simp] theorem State.countSlot_dt : s.countSlot.dt = s.dt := rfl
@[simp] theorem State.countSlot_st : s.countSlot.st = s.st := rfl
@[simp] theorem State.countSlot_fb : s.countSlot.fb = s.fb := rfl
@[simp] theorem State.countSlot_kd : s.countSlot.kd = s.kd := rfl
@[simp] theorem State.countSlot_kr : s.countSlot.kr = s.kr := rfl
@[simp] theorem State.countSlot_quit : s.countSlot.quit = s.quit := rfl
@[simp] theorem State.countSlot_slot : s.countSlot.slot = s.slot + 1 := rfl
@[simp] theorem State.countSlot_batchEnd : s.countSlot.batchEnd = s.batchEnd := rfl
@[simp] theorem State.countSlot_halted : s.countSlot.halted = s.halted := rfl
@[simp] theorem State.countSlot_fault : s.countSlot.fault = s.fault := rfl
@[simp] theorem State.countSlot_ended : s.countSlot.ended = s.ended := rfl
@[simp] theorem State.countSlot_inTick : s.countSlot.inTick = s.inTick := rfl
@[simp] theorem State.countSlot_ins : s.countSlot.ins = s.ins := rfl
@[simp] theorem State.countSlot_out : s.countSlot.out = s.out := rfl
@[simp] theorem State.countSlot_host : s.countSlot.host = s.host := rfl

@[simp] theorem State.closeTick_cfg : s.closeTick.cfg = s.cfg := rfl
@[simp] theorem State.closeTick_mem : s.closeTick.mem = s.mem := rfl
@[simp] theorem State.closeTick_v : s.closeTick.v = s.v := rfl
@[simp] theorem State.closeTick_i : s.closeTick.i = s.i := rfl
@[simp] theorem State.closeTick_pc : s.closeTick.pc = s.pc := rfl
@[simp] theorem State.closeTick_stack : s.closeTick.stack = s.stack := rfl
@[simp] theorem State.closeTick_dt : s.closeTick.dt = s.dt := rfl
@[simp] theorem State.closeTick_st : s.closeTick.st = s.st := rfl
@[simp] theorem State.closeTick_fb : s.closeTick.fb = s.fb := rfl
@[simp] theorem State.closeTick_kd : s.closeTick.kd = s.kd := rfl
@[simp] theorem State.closeTick_kr : s.closeTick.kr = s.kr := rfl
@[simp] theorem State.closeTick_quit : s.closeTick.quit = s.quit := rfl
@[simp] theorem State.closeTick_slot : s.closeTick.slot = s.slot := rfl
@[simp] theorem State.closeTick_batchEnd : s.closeTick.batchEnd = s.batchEnd := rfl
@[simp] theorem State.closeTick_halted : s.closeTick.halted = s.halted := rfl
@[simp] theorem State.closeTick_fault : s.closeTick.fault = s.fault := rfl
@[simp] theorem State.closeTick_ended : s.closeTick.ended = s.quit := rfl
@[simp] theorem State.closeTick_inTick : s.closeTick.inTick = false := rfl
@[simp] theorem State.closeTick_ins : s.closeTick.ins = s.ins := rfl
@[simp] theorem State.closeTick_out : s.closeTick.out = s.out := rfl
@[simp] theorem State.closeTick_host : s.closeTick.host = s.host := rfl

end

end Sys2Proof.Machine
end

