-- ==== Sys2Proof/Laws/Registers.lean ====
section
/-! SUPPORT. Reading a register after a write (R21, R25). -/

namespace Sys2Proof.Machine

theorem State.reg_setReg (s : State) (x r : Reg) (b : Byte) :
    (s.setReg x b).reg r = if r = x then b else s.reg r := by
  simp only [State.reg, State.setReg, Vector.getElem_set, Fin.ext_iff, eq_comm]

@[simp] theorem State.reg_setReg_self (s : State) (x : Reg) (b : Byte) :
    (s.setReg x b).reg x = b := by simp [State.reg_setReg]

theorem State.reg_setReg_ne (s : State) {x r : Reg} (b : Byte) (h : r ≠ x) :
    (s.setReg x b).reg r = s.reg r := by simp [State.reg_setReg, h]

/-- Reading a register depends on the bank alone. -/
theorem State.reg_congr {s t : State} (h : t.v = s.v) (r : Reg) : t.reg r = s.reg r := by
  simp only [State.reg, h]

/-- R25: after a result and its flag, VF holds the flag, another destination the result, and every
other register what it held. -/
theorem State.reg_setRegThenFlag (s : State) (x r : Reg) (b f : Byte) :
    (s.setRegThenFlag x b f).reg r = if r = VF then f else if r = x then b else s.reg r := by
  simp only [State.setRegThenFlag, State.reg_setReg]

/-- The result and its flag change the register bank only. -/
theorem State.setRegThenFlag_frame (s : State) (x : Reg) (b f : Byte) :
    s.setRegThenFlag x b f = { s with v := (s.setRegThenFlag x b f).v } := rfl

theorem mem_regsUpTo (x r : Reg) : r ∈ regsUpTo x ↔ r ≤ x := by
  revert x r; decide

/-! ## Operand forms and flags as numbers -/

theorem lowNibble_val (b : Byte) : (lowNibble b).val = b.toNat % 16 := by revert b; decide

theorem keyByte_toNat (k : Key) : (keyByte k).toNat = k.val := by revert k; decide

theorem zextAddr_toNat (nnn : Addr) : (zextAddr nnn).toNat = nnn.toNat := by
  have := nnn.isLt
  simp only [zextAddr, BitVec.toNat_setWidth]
  omega

theorem lowBitFlag_toNat (b : Byte) : (lowBitFlag b).toNat = b.toNat % 2 := by revert b; decide

theorem highBitFlag_toNat (b : Byte) : (highBitFlag b).toNat = b.toNat / 128 := by
  revert b; decide

theorem shiftRight_toNat (b : Byte) : (b >>> 1).toNat = b.toNat / 2 := by revert b; decide

theorem shiftLeft_toNat (b : Byte) : (b <<< 1).toNat = 2 * b.toNat % 256 := by revert b; decide

end Sys2Proof.Machine
end

