-- ==== Sys2Proof/Laws/Memory.lean ====
section
/-! SUPPORT. The memory laws: a read after a write (R62, R63, R72), and the canonical form that every
memory operation keeps. -/

namespace Sys2Proof.Machine

theorem memGet_memInsert (cfg : Config) (m : Memory) (a k : Nat) (b : Byte) :
    memGet cfg (memInsert m a b) k = if k = a then b else memGet cfg m k := by
  induction m with
  | nil => simp [memInsert, memGet]
  | cons c m ih =>
    obtain ⟨k', c⟩ := c
    simp only [memInsert]
    split
    · simp only [memGet]
    · split
      · rename_i h; subst h
        simp only [memGet]
        split <;> simp_all
      · simp only [memGet, ih]
        split
        · rename_i h1 h2 h3; subst h3
          rw [if_neg (Ne.symm h2)]
        · rfl

theorem memGet_filter (cfg : Config) (m : Memory) (a k : Nat) :
    memGet cfg (m.filter (fun c => c.1 != a)) k =
      if k = a then unlistedByte cfg k else memGet cfg m k := by
  induction m with
  | nil => simp [memGet]
  | cons c m ih =>
    obtain ⟨k', c⟩ := c
    by_cases h : k' = a
    · subst h
      simp only [bne_self_eq_false, Bool.false_eq_true, not_false_eq_true, List.filter_cons_of_neg,
        ih, memGet]
      split <;> simp_all
    · rw [List.filter_cons_of_pos (by simpa using h)]
      simp only [memGet, ih]
      split <;> simp_all

/-- A read after a write gives the byte written at that address and the old byte elsewhere. -/
theorem memGet_memSet (cfg : Config) (m : Memory) (a k : Nat) (b : Byte) :
    memGet cfg (memSet cfg m a b) k = if k = a then b else memGet cfg m k := by
  unfold memSet
  split
  · rename_i h
    rw [memGet_filter]
    split
    · rename_i h'; rw [h, h']
    · rfl
  · exact memGet_memInsert cfg m a k b

@[simp] theorem State.peek_poke (s : State) (a k : Nat) (b : Byte) :
    (s.poke a b).peek k = if k = a then b else s.peek k := by
  simp only [State.peek, State.poke, memGet_memSet]

/-- Reading a byte depends on the memory and the configuration alone. -/
theorem State.peek_congr {s t : State} (hm : t.mem = s.mem) (hc : t.cfg = s.cfg) (a : Nat) :
    t.peek a = s.peek a := by simp only [State.peek, hm, hc]

theorem mem_memInsert {m : Memory} {a : Nat} {b : Byte} {c : Host.Cell}
    (h : c ∈ memInsert m a b) : c = (a, b) ∨ c ∈ m := by
  induction m with
  | nil => simpa [memInsert] using h
  | cons d m ih =>
    obtain ⟨k, e⟩ := d
    simp only [memInsert] at h
    split at h
    · simpa using h
    · split at h
      · rcases List.mem_cons.1 h with h | h
        · exact .inl h
        · exact .inr (List.mem_cons_of_mem _ h)
      · rcases List.mem_cons.1 h with h | h
        · exact .inr (h ▸ List.mem_cons_self)
        · exact (ih h).imp_right (List.mem_cons_of_mem _)

theorem pairwise_memInsert {m : Memory} (a : Nat) (b : Byte)
    (h : m.Pairwise (fun c d => c.1 < d.1)) :
    (memInsert m a b).Pairwise (fun c d => c.1 < d.1) := by
  induction m with
  | nil => simp [memInsert]
  | cons d m ih =>
    obtain ⟨k, e⟩ := d
    rw [List.pairwise_cons] at h
    simp only [memInsert]
    split
    · rename_i hlt
      refine List.pairwise_cons.2 ⟨fun c hc => ?_, List.pairwise_cons.2 h⟩
      rcases List.mem_cons.1 hc with rfl | hc
      · exact hlt
      · exact lt_trans hlt (h.1 c hc)
    · split
      · rename_i heq; subst heq
        exact List.pairwise_cons.2 h
      · rename_i hlt hne
        refine List.pairwise_cons.2 ⟨fun c hc => ?_, ih h.2⟩
        rcases mem_memInsert hc with rfl | hc
        · exact lt_of_le_of_ne (not_lt.1 hlt) (Ne.symm hne)
        · exact h.1 c hc

/-- A write inside the memory keeps the canonical form. -/
theorem memSet_wf {cfg : Config} {m : Memory} {a : Nat} (b : Byte) (ha : a < memSize)
    (h : Memory.wf cfg m) : Memory.wf cfg (memSet cfg m a b) := by
  unfold memSet
  split
  · exact ⟨h.1.sublist List.filter_sublist, fun c hc => h.2 c (List.mem_of_mem_filter hc)⟩
  · rename_i hb
    refine ⟨pairwise_memInsert a b h.1, fun c hc => ?_⟩
    rcases mem_memInsert hc with rfl | hc
    · exact ⟨ha, hb⟩
    · exact h.2 c hc

/-- A reduced address lies inside the memory (R64). -/
theorem reduceAddr_lt {p : AddrPolicy} {a A : Nat} (h : reduceAddr p a = some A) : A < memSize := by
  cases p with
  | wrap =>
    simp only [reduceAddr, Option.some.injEq] at h
    exact h ▸ Nat.mod_lt a (by decide)
  | fault =>
    simp only [reduceAddr] at h
    split at h
    · simp only [Option.some.injEq] at h
      subst h
      exact Nat.lt_succ_of_le ‹_›
    · cases h

/-- Under `Wrap` every address reduces (R64). -/
@[simp] theorem reduceAddr_wrap (a : Nat) : reduceAddr .wrap a = some (a % memSize) := rfl

/-- An address fails to reduce exactly under `Fault` above 0xFFF (R64). -/
theorem reduceAddr_eq_none {p : AddrPolicy} {a : Nat} :
    reduceAddr p a = none ↔ p = .fault ∧ 0xFFF < a := by
  cases p <;> simp [reduceAddr]

/-- What a write through the arbiter can do (R63, R64): none exactly where the address does not
reduce, else one byte written at the reduced address. -/
theorem State.memWrite_eq_some {s t : State} {a : Nat} {b : Byte} (h : s.memWrite a b = some t) :
    ∃ A, reduceAddr s.cfg.addrPolicy a = some A ∧ A < memSize ∧ t = s.poke A b := by
  simp only [State.memWrite, Option.map_eq_some_iff] at h
  obtain ⟨A, hA, rfl⟩ := h
  exact ⟨A, hA, reduceAddr_lt hA, rfl⟩

theorem State.memWrite_eq_none {s : State} {a : Nat} {b : Byte} :
    s.memWrite a b = none ↔ reduceAddr s.cfg.addrPolicy a = none := by
  simp [State.memWrite]

theorem State.memRead_eq_some {s : State} {a : Nat} {b : Byte} :
    s.memRead a = some b ↔ ∃ A, reduceAddr s.cfg.addrPolicy a = some A ∧ s.peek A = b := by
  simp [State.memRead]

theorem State.memRead_eq_none {s : State} {a : Nat} :
    s.memRead a = none ↔ reduceAddr s.cfg.addrPolicy a = none := by
  simp [State.memRead]

theorem State.memRead_congr {s t : State} (hm : t.mem = s.mem) (hc : t.cfg = s.cfg) (a : Nat) :
    t.memRead a = s.memRead a := by
  simp only [State.memRead, hc]
  congr 1
  funext k
  exact State.peek_congr hm hc k

/-- Nothing is listed after reset, so the canonical form holds. -/
theorem reset_mem_wf (cfg : Config) : Memory.wf cfg (State.resetWith cfg).mem := by
  exact ⟨List.Pairwise.nil, fun _ h => absurd h List.not_mem_nil⟩

end Sys2Proof.Machine
end

