-- ==== Sys2Proof/Laws/Ops.lean ====
section
/-! SUPPORT. What each shared operation can do, said once: which fields it may change, whether it
halts, and that it keeps the canonical form of memory. Later proofs cite these instead of unfolding
the operations. -/

namespace Sys2Proof.Machine

@[simp] theorem Flow.state_go (s : State) : (Flow.go s).state = s := rfl
@[simp] theorem Flow.state_halt (s : State) : (Flow.halt s).state = s := rfl
@[simp] theorem Flow.andThen_go (s : State) (k : State → Flow) : (Flow.go s).andThen k = k s := rfl
@[simp] theorem Flow.andThen_halt (s : State) (k : State → Flow) :
    (Flow.halt s).andThen k = .halt s := rfl

@[simp] theorem State.raise_pixel (s : State) (k : FaultKind) (f : FaultInfo) (a w : Word)
    (r : RowIx) (c : ColIx) : (s.raise k f a w).pixel r c = s.pixel r c := rfl

/-- A pop gives the top and takes it off; on an empty stack it gives none (R29). -/
theorem State.pop_eq_some {s t : State} {w : Word} (h : s.pop = some (w, t)) :
    s.stack = t.stack ++ [w] ∧ t = { s with stack := s.stack.dropLast } := by
  simp only [State.pop] at h
  split at h
  · cases h
  · rename_i w' hw
    simp only [Option.some.injEq, Prod.mk.injEq] at h
    obtain ⟨rfl, rfl⟩ := h
    exact ⟨(List.dropLast_append_getLast? w' hw).symm, rfl⟩

theorem State.pop_eq_none {s : State} : s.pop = none ↔ s.stack = [] := by
  simp only [State.pop]
  constructor
  · intro h
    split at h
    · exact List.getLast?_eq_none_iff.1 ‹_›
    · cases h
  · intro h
    simp [h]

/-- A pop undoes a push (R29). -/
@[simp] theorem State.pop_push (s : State) (w : Word) : (s.push w).pop = some (w, s) := by
  simp [State.pop, State.push]

/-- `storeBytes` changes memory only, or halts by MemBounds with some bytes written. -/
theorem storeBytes_cases (bs : List Byte) (a : Nat) (s : State) :
    ∃ m, (Memory.wf s.cfg s.mem → Memory.wf s.cfg m) ∧
      (storeBytes bs a s = .go { s with mem := m } ∨
        ∃ k, reduceAddr s.cfg.addrPolicy k = none ∧ storeBytes bs a s =
          .halt ({ s with mem := m }.raiseIns .memBounds (.address k))) := by
  induction bs generalizing a s with
  | nil => exact ⟨s.mem, id, .inl rfl⟩
  | cons b bs ih =>
    simp only [storeBytes]
    cases h : s.memWrite a b with
    | none => exact ⟨s.mem, id, .inr ⟨a, State.memWrite_eq_none.1 h, rfl⟩⟩
    | some t =>
      obtain ⟨A, -, hlt, rfl⟩ := State.memWrite_eq_some h
      obtain ⟨m, hwf, hm⟩ := ih (a + 1) (s.poke A b)
      exact ⟨m, fun h => hwf (memSet_wf b hlt h), hm⟩

/-- `dumpRegs` changes memory and `I` only, or halts by MemBounds part-way. -/
theorem dumpRegs_cases (rs : List Reg) (s : State) :
    ∃ m w, (Memory.wf s.cfg s.mem → Memory.wf s.cfg m) ∧
      (dumpRegs rs s = .go { s with mem := m, i := w } ∨
        ∃ k, reduceAddr s.cfg.addrPolicy k = none ∧ dumpRegs rs s =
          .halt ({ s with mem := m, i := w }.raiseIns .memBounds (.address k))) := by
  induction rs generalizing s with
  | nil => exact ⟨s.mem, s.i, id, .inl rfl⟩
  | cons r rs ih =>
    simp only [dumpRegs]
    cases h : s.memWrite s.i.toNat (s.reg r) with
    | none => exact ⟨s.mem, s.i, id, .inr ⟨s.i.toNat, State.memWrite_eq_none.1 h, rfl⟩⟩
    | some t =>
      obtain ⟨A, -, hlt, rfl⟩ := State.memWrite_eq_some h
      obtain ⟨m, w, hwf, hm⟩ := ih ((s.poke A (s.reg r)).setI (s.i + 1))
      exact ⟨m, w, fun h => hwf (memSet_wf _ hlt h), hm⟩

/-- `loadRegs` changes registers of its list and `I` only, or halts by MemBounds part-way. -/
theorem loadRegs_cases (rs : List Reg) (s : State) :
    ∃ v w, (∀ r : Reg, r ∉ rs → v[r.val] = s.v[r.val]) ∧
      (loadRegs rs s = .go { s with v := v, i := w } ∨
        ∃ k, reduceAddr s.cfg.addrPolicy k = none ∧ loadRegs rs s =
          .halt ({ s with v := v, i := w }.raiseIns .memBounds (.address k))) := by
  induction rs generalizing s with
  | nil => exact ⟨s.v, s.i, fun _ _ => rfl, .inl rfl⟩
  | cons r rs ih =>
    simp only [loadRegs]
    cases h : s.memRead s.i.toNat with
    | none =>
      exact ⟨s.v, s.i, fun _ _ => rfl, .inr ⟨s.i.toNat, State.memRead_eq_none.1 h, rfl⟩⟩
    | some b =>
      obtain ⟨v, w, hv, hm⟩ := ih ((s.setReg r b).setI (s.i + 1))
      refine ⟨v, w, fun q hq => ?_, hm⟩
      rw [List.mem_cons, not_or] at hq
      exact (hv q hq.2).trans (s.reg_setReg_ne b hq.1)

/-- A flipped pixel changes the framebuffer and VF only. -/
theorem State.flipPixel_cases (s : State) (r : RowIx) (c : ColIx) :
    ∃ f v, (∀ q : Reg, q ≠ VF → v[q.val] = s.v[q.val]) ∧
      s.flipPixel r c = { s with fb := f, v := v } := by
  simp only [State.flipPixel]
  split
  · exact ⟨_, _, fun q hq => s.reg_setReg_ne 1 hq, rfl⟩
  · exact ⟨_, _, fun _ _ => rfl, rfl⟩

/-- A drawn sprite row changes the framebuffer and VF only. -/
theorem drawColumns_cases (r : RowIx) (ox : Nat) (row : Byte) (js : List Nat) (s : State) :
    ∃ f v, (∀ q : Reg, q ≠ VF → v[q.val] = s.v[q.val]) ∧
      drawColumns r ox row js s = { s with fb := f, v := v } := by
  induction js generalizing s with
  | nil => exact ⟨s.fb, s.v, fun _ _ => rfl, rfl⟩
  | cons j js ih =>
    simp only [drawColumns]
    split
    · rename_i h
      split
      · obtain ⟨f, v, hv, h1⟩ := s.flipPixel_cases r ⟨ox + j, h⟩
        obtain ⟨f', v', hv', h2⟩ := ih (s.flipPixel r ⟨ox + j, h⟩)
        rw [h1] at h2 hv' ⊢
        exact ⟨f', v', fun q hq => (hv' q hq).trans (hv q hq), h2⟩
      · exact ih s
    · exact ⟨s.fb, s.v, fun _ _ => rfl, rfl⟩

/-- The scan of a sprite changes the framebuffer and VF only, or halts by MemBounds part-way. -/
theorem drawRows_cases (ox oy k i : Nat) (s : State) :
    ∃ f v, (∀ q : Reg, q ≠ VF → v[q.val] = s.v[q.val]) ∧
      (drawRows ox oy k i s = .go { s with fb := f, v := v } ∨
        ∃ a, reduceAddr s.cfg.addrPolicy a = none ∧ drawRows ox oy k i s =
          .halt ({ s with fb := f, v := v }.raiseIns .memBounds (.address a))) := by
  induction k generalizing i s with
  | zero => exact ⟨s.fb, s.v, fun _ _ => rfl, .inl rfl⟩
  | succ k ih =>
    simp only [drawRows]
    split
    · rename_i h
      split
      · exact ⟨s.fb, s.v, fun _ _ => rfl, .inr ⟨_, State.memRead_eq_none.1 ‹_›, rfl⟩⟩
      · rename_i row _
        obtain ⟨f, v, hv, h1⟩ := drawColumns_cases ⟨oy + i, h⟩ ox row (List.range 8) s
        obtain ⟨f', v', hv', h2⟩ := ih (i + 1) (drawColumns ⟨oy + i, h⟩ ox row (List.range 8) s)
        rw [h1] at h2 hv' ⊢
        exact ⟨f', v', fun q hq => (hv' q hq).trans (hv q hq), h2⟩
    · exact ⟨s.fb, s.v, fun _ _ => rfl, .inl rfl⟩

/-- What a Flush and EndBatch do (R220, R331): with `flush_ok` the frame is sent, the report taken
over and the batch ended; without it the frame is sent and HostIo raised, nothing else. -/
theorem State.flushAndEndBatch_cases (s : State) :
    (s.flushAnswer.ok = true ∧ s.flushAndEndBatch =
        .go (s.sendFrame.takeFlush.accept s.flushAnswer.report).endBatch) ∨
      (s.flushAnswer.ok = false ∧ s.flushAndEndBatch =
        .halt (s.sendFrame.takeFlush.raiseIns .hostIo .display)) := by
  simp only [State.flushAndEndBatch, State.flush]
  cases h : s.flushAnswer.ok <;> simp

/-- There is a tone transition exactly if one of the old and the new ST is 0 (R36, R334). -/
theorem State.tone_stands_iff (s : State) (b : Byte) :
    (b != 0) = s.tone ↔ (b = 0 ↔ s.st = 0) := by
  rw [State.tone, Bool.eq_iff_iff, bne_iff_ne, bne_iff_ne, not_iff_not]

/-- What setting the sound timer does (R317, R334): no transition asks nothing; a transition takes
an answer, and a failure raises HostIo after the new ST is written. -/
theorem State.setSound_cases (s : State) (b : Byte) (a w : Word) :
    ((b != 0) = s.tone ∧ s.setSound b a w = .go { s with st := b }) ∨
      ((b != 0) ≠ s.tone ∧ s.audioAnswer = true ∧
        s.setSound b a w = .go { s with st := b }.takeAudio) ∨
      ((b != 0) ≠ s.tone ∧ s.audioAnswer = false ∧
        s.setSound b a w = .halt ({ s with st := b }.takeAudio.raise .hostIo .audio a w)) := by
  by_cases h : (b != 0) = s.tone
  · exact .inl ⟨h, if_pos h⟩
  · have hs : s.setSound b a w =
        if s.audioAnswer then .go { s with st := b }.takeAudio
        else .halt ({ s with st := b }.takeAudio.raise .hostIo .audio a w) := if_neg h
    cases hb : s.audioAnswer with
    | true => exact .inr (.inl ⟨h, rfl, by rw [hs, hb]; rfl⟩)
    | false => exact .inr (.inr ⟨h, rfl, by rw [hs, hb]; rfl⟩)

/-- The countdown is the predecessor, stopping at 0 (R321). -/
theorem countDown_toNat (b : Byte) : (countDown b).toNat = b.toNat - 1 := by
  revert b; decide

@[simp] theorem State.skipIf_true (s : State) : s.skipIf true = s.setPc (s.pc + 2) := rfl
@[simp] theorem State.skipIf_false (s : State) : s.skipIf false = s := rfl

/-- A skip changes `pc` only (R150). -/
theorem State.skipIf_frame (s : State) (c : Bool) : s.skipIf c = s.setPc (s.skipIf c).pc := by
  cases c <;> rfl

end Sys2Proof.Machine
end

