-- ==== Sys2Proof/Laws/Loops.lean ====
section
/-! SUPPORT. What the loops of FX33, FX55, FX65 and DRW leave, said once: the loop cut in two, and
its effect where every access succeeds. -/

namespace Sys2Proof.Machine

/-! ## Addresses -/

/-- Two addresses less than 4096 apart never reduce to the same byte (R64). -/
theorem reduceAddr_ne {p : AddrPolicy} {a b A : Nat} (h : a < b) (hlt : b < a + memSize)
    (ha : reduceAddr p a = some A) : reduceAddr p b ≠ some A := by
  intro hb
  cases p with
  | wrap =>
    simp only [reduceAddr, Option.some.injEq, memSize] at ha hb hlt
    omega
  | fault =>
    simp only [reduceAddr] at ha hb
    split at ha <;> split at hb <;> simp_all

/-- The same for `I` as FX55 and FX65 advance it, wrapping at 16 bits (R284). -/
theorem reduceAddr_index_ne {p : AddrPolicy} {w : Word} {k A : Nat} (hk : 0 < k)
    (hlt : k < memSize) (ha : reduceAddr p w.toNat = some A) :
    reduceAddr p (w + BitVec.ofNat 16 k).toNat ≠ some A := by
  intro hb
  have := w.isLt
  rw [BitVec.toNat_add, BitVec.toNat_ofNat] at hb
  cases p with
  | wrap =>
    simp only [reduceAddr, Option.some.injEq, memSize] at ha hb hlt
    omega
  | fault =>
    simp only [reduceAddr, memSize] at ha hb hlt
    split at ha <;> split at hb <;> simp_all
    omega

theorem index_zero (w : Word) : w + BitVec.ofNat 16 0 = w := BitVec.add_zero w

theorem index_succ (w : Word) (k : Nat) :
    w + 1 + BitVec.ofNat 16 k = w + BitVec.ofNat 16 (k + 1) := by
  rw [BitVec.add_assoc, Nat.add_comm k 1, ← BitVec.ofNat_add_ofNat]
  rfl

/-! ## The registers of FX55 and FX65 -/

@[simp] theorem length_regsUpTo (x : Reg) : (regsUpTo x).length = x.val + 1 := by
  revert x; decide

theorem getElem_regsUpTo (x : Reg) (j : Nat) (h : j < (regsUpTo x).length) :
    (regsUpTo x)[j].val = j := by simp [regsUpTo]

/-- The registers up to x, cut before register k (R284). -/
theorem regsUpTo_split {x k : Reg} (h : k ≤ x) :
    ∃ rest, regsUpTo x = (List.finRange 16).take k.val ++ k :: rest := by
  refine ⟨(regsUpTo x).drop (k.val + 1), ?_⟩
  revert x k; decide

/-! ## Stores of successive bytes -/

theorem storeBytes_append (bs cs : List Byte) (a : Nat) (s : State) :
    storeBytes (bs ++ cs) a s =
      (storeBytes bs a s).andThen (storeBytes cs (a + bs.length)) := by
  induction bs generalizing a s with
  | nil => rfl
  | cons b bs ih =>
    simp only [List.cons_append, storeBytes]
    cases s.memWrite a b with
    | none => rfl
    | some t =>
      rw [List.length_cons, Nat.add_comm bs.length 1, ← Nat.add_assoc]
      exact ih _ _

/-- Where every address can be written, each byte stands at its address and no other byte has
changed (R283). -/
theorem storeBytes_spec (bs : List Byte) (a : Nat) (s : State) (hlen : bs.length ≤ memSize)
    (hr : ∀ k < bs.length, s.memRead (a + k) ≠ none) :
    ∃ m, storeBytes bs a s = .go { s with mem := m } ∧
      (∀ k (hk : k < bs.length), State.memRead { s with mem := m } (a + k) = some bs[k]) ∧
      ∀ A, (∀ k < bs.length, reduceAddr s.cfg.addrPolicy (a + k) ≠ some A) →
        State.peek { s with mem := m } A = s.peek A := by
  induction bs generalizing a s with
  | nil => exact ⟨s.mem, rfl, by simp, fun _ _ => rfl⟩
  | cons b bs ih =>
    simp only [List.length_cons] at hlen hr ⊢
    obtain ⟨A₀, hA₀⟩ := Option.ne_none_iff_exists'.1 (mt State.memRead_eq_none.2 (hr 0 (by omega)))
    rw [Nat.add_zero] at hA₀
    obtain ⟨m, he, hw, hf⟩ := ih (a + 1) (s.poke A₀ b) (by omega) fun k hk => by
      have := hr (k + 1) (by omega)
      rw [Nat.add_comm k 1, ← Nat.add_assoc, Ne, State.memRead_eq_none] at this
      exact mt State.memRead_eq_none.1 this
    refine ⟨m, ?_, fun k hk => ?_, fun A hA => ?_⟩
    · simp only [storeBytes, State.memWrite, hA₀, Option.map_some]
      exact he
    · cases k with
      | zero =>
        refine State.memRead_eq_some.2 ⟨A₀, hA₀, (hf A₀ fun k hk => ?_).trans (by simp)⟩
        exact reduceAddr_ne (by omega) (by omega) hA₀
      | succ k =>
        have := hw k (by omega)
        rw [Nat.add_assoc, Nat.add_comm 1 k] at this
        exact this
    · refine (hf A fun k hk => ?_).trans ?_
      · have := hA (k + 1) (by omega)
        rwa [Nat.add_comm k 1, ← Nat.add_assoc] at this
      · rw [State.peek_poke, if_neg]
        rintro rfl
        exact hA 0 (by omega) hA₀

/-! ## Register dump and register load -/

theorem dumpRegs_append (qs rs : List Reg) (s : State) :
    dumpRegs (qs ++ rs) s = (dumpRegs qs s).andThen (dumpRegs rs) := by
  induction qs generalizing s with
  | nil => rfl
  | cons q qs ih =>
    simp only [List.cons_append, dumpRegs]
    cases s.memWrite s.i.toNat (s.reg q) with
    | none => rfl
    | some t => exact ih _

theorem loadRegs_append (qs rs : List Reg) (s : State) :
    loadRegs (qs ++ rs) s = (loadRegs qs s).andThen (loadRegs rs) := by
  induction qs generalizing s with
  | nil => rfl
  | cons q qs ih =>
    simp only [List.cons_append, loadRegs]
    cases s.memRead s.i.toNat with
    | none => rfl
    | some b => exact ih _

/-- Where every address can be written, register j of the list stands at `I + j`, `I` has advanced
over the list, and no other byte has changed (R285). -/
theorem dumpRegs_spec (rs : List Reg) (s : State) (hlen : rs.length ≤ memSize)
    (hr : ∀ k < rs.length, s.memRead (s.i + BitVec.ofNat 16 k).toNat ≠ none) :
    ∃ m, dumpRegs rs s = .go { s with mem := m, i := s.i + BitVec.ofNat 16 rs.length } ∧
      (∀ k (hk : k < rs.length), State.memRead { s with mem := m }
        (s.i + BitVec.ofNat 16 k).toNat = some (s.reg rs[k])) ∧
      ∀ A, (∀ k < rs.length,
          reduceAddr s.cfg.addrPolicy (s.i + BitVec.ofNat 16 k).toNat ≠ some A) →
        State.peek { s with mem := m } A = s.peek A := by
  induction rs generalizing s with
  | nil => exact ⟨s.mem, by simp [dumpRegs], by simp, fun _ _ => rfl⟩
  | cons r rs ih =>
    simp only [List.length_cons] at hlen hr ⊢
    obtain ⟨A₀, hA₀⟩ := Option.ne_none_iff_exists'.1 (mt State.memRead_eq_none.2 (hr 0 (by omega)))
    rw [index_zero] at hA₀
    obtain ⟨m, he, hw, hf⟩ := ih ((s.poke A₀ (s.reg r)).setI (s.i + 1)) (by omega) fun k hk => by
      have := hr (k + 1) (by omega)
      rw [← index_succ, Ne, State.memRead_eq_none] at this
      exact mt State.memRead_eq_none.1 this
    refine ⟨m, ?_, fun k hk => ?_, fun A hA => ?_⟩
    · simp only [dumpRegs, State.memWrite, hA₀, Option.map_some]
      rw [he, ← index_succ]
      rfl
    · cases k with
      | zero =>
        rw [index_zero]
        refine State.memRead_eq_some.2 ⟨A₀, hA₀, (hf A₀ fun k hk => ?_).trans ?_⟩
        · rw [State.setI_i, index_succ]
          exact reduceAddr_index_ne (by omega) (by omega) hA₀
        · exact (s.peek_poke A₀ A₀ (s.reg r)).trans (if_pos rfl)
      | succ k =>
        rw [← index_succ]
        exact hw k (by omega)
    · refine (hf A fun k hk => ?_).trans ?_
      · rw [State.setI_i, index_succ]
        exact hA (k + 1) (by omega)
      · refine (s.peek_poke A₀ A (s.reg r)).trans (if_neg ?_)
        rintro rfl
        exact hA 0 (by omega) (by rw [index_zero]; exact hA₀)

/-- Where every address can be read, register j of the list holds the byte at `I + j`, `I` has
advanced over the list, and no other register has changed (R286). -/
theorem loadRegs_spec (rs : List Reg) (s : State) (hnd : rs.Nodup)
    (hr : ∀ k < rs.length, s.memRead (s.i + BitVec.ofNat 16 k).toNat ≠ none) :
    ∃ v, loadRegs rs s = .go { s with v := v, i := s.i + BitVec.ofNat 16 rs.length } ∧
      (∀ k (hk : k < rs.length), s.memRead (s.i + BitVec.ofNat 16 k).toNat =
        some (State.reg { s with v := v } rs[k])) ∧
      ∀ r : Reg, r ∉ rs → State.reg { s with v := v } r = s.reg r := by
  induction rs generalizing s with
  | nil => exact ⟨s.v, by simp [loadRegs], by simp, fun _ _ => rfl⟩
  | cons r rs ih =>
    simp only [List.length_cons] at hr ⊢
    rw [List.nodup_cons] at hnd
    obtain ⟨b, hb⟩ := Option.ne_none_iff_exists'.1 (hr 0 (by omega))
    rw [index_zero] at hb
    obtain ⟨v, he, hw, hf⟩ := ih ((s.setReg r b).setI (s.i + 1)) hnd.2 fun k hk => by
      have := hr (k + 1) (by omega)
      rw [← index_succ] at this
      exact this
    refine ⟨v, ?_, fun k hk => ?_, fun q hq => ?_⟩
    · simp only [loadRegs, hb]
      rw [he, ← index_succ]
      rfl
    · cases k with
      | zero =>
        rw [index_zero, hb]
        exact congrArg some ((hf r hnd.1).trans (s.reg_setReg_self r b)).symm
      | succ k =>
        rw [← index_succ]
        exact hw k (by omega)
    · rw [List.mem_cons, not_or] at hq
      exact (hf q hq.2).trans (s.reg_setReg_ne b hq.1)

end Sys2Proof.Machine
end

