-- ==== Sys2Proof/Laws/Draw.lean ====
section
/-! SUPPORT. What the sprite scan of DRW leaves on the screen and in VF (R222, R225), said once. -/

namespace Sys2Proof.Machine

/-! ## One pixel -/

theorem getLsbD_columnMask (c c' : ColIx) :
    (columnMask c).getLsbD (63 - c'.val) = decide (c' = c) := by
  have := c.isLt
  have := c'.isLt
  rw [Bool.eq_iff_iff]
  simp only [columnMask, BitVec.getLsbD_shiftLeft, BitVec.getLsbD_one, Fin.ext_iff,
    Bool.and_eq_true, Bool.not_eq_true', decide_eq_true_eq, decide_eq_false_iff_not]
  omega

@[simp] theorem State.pixel_setReg (s : State) (x : Reg) (b : Byte) (r : RowIx) (c : ColIx) :
    (s.setReg x b).pixel r c = s.pixel r c := rfl

theorem State.pixel_lightPixel (s : State) (r r' : RowIx) (c c' : ColIx) :
    (s.lightPixel r c).pixel r' c' = (s.pixel r' c' || decide (r' = r ∧ c' = c)) := by
  simp only [State.pixel, State.lightPixel, Vector.getElem_set, Fin.ext_iff]
  by_cases h : r.val = r'.val
  · rw [if_pos h, BitVec.getLsbD_or, getLsbD_columnMask]
    simp [h, Fin.ext_iff]
  · rw [if_neg h]
    simp [Ne.symm h]

theorem State.pixel_clearPixel (s : State) (r r' : RowIx) (c c' : ColIx) :
    (s.clearPixel r c).pixel r' c' = (s.pixel r' c' && !decide (r' = r ∧ c' = c)) := by
  simp only [State.pixel, State.clearPixel, Vector.getElem_set, Fin.ext_iff]
  by_cases h : r.val = r'.val
  · rw [if_pos h, BitVec.getLsbD_and, BitVec.getLsbD_not, getLsbD_columnMask]
    have := c'.isLt
    simp [h, Fin.ext_iff, show 63 - c'.val < 64 by omega]
  · rw [if_neg h]
    simp [Ne.symm h]

/-- A flipped pixel is XORed (R225). -/
theorem State.pixel_flipPixel (s : State) (r r' : RowIx) (c c' : ColIx) :
    (s.flipPixel r c).pixel r' c' = (s.pixel r' c' ^^ decide (r' = r ∧ c' = c)) := by
  unfold State.flipPixel
  by_cases h : r' = r ∧ c' = c
  · obtain ⟨rfl, rfl⟩ := h
    cases hp : s.pixel r' c' <;> simp [State.pixel_lightPixel, State.pixel_clearPixel, hp]
  · cases hp : s.pixel r c <;> simp [State.pixel_lightPixel, State.pixel_clearPixel, h]

/-- VF becomes 1 where the pixel was set, and stays as it is otherwise (R222). -/
theorem State.flag_flipPixel (s : State) (r : RowIx) (c : ColIx) :
    (s.flipPixel r c).reg VF = if s.pixel r c then 1 else s.reg VF := by
  unfold State.flipPixel
  cases s.pixel r c
  · rfl
  · exact State.reg_setReg_self ..

/-! ## One sprite row -/

theorem ite_or_ite {P Q : Prop} [Decidable P] [Decidable Q] [Decidable (Q ∨ P)] {b c : Byte} :
    (if P then b else if Q then b else c) = if Q ∨ P then b else c := by
  by_cases hp : P <;> by_cases hq : Q <;> simp [hp, hq]

/-- Whether the sprite row's bits a to a + n − 1 put a set bit on column c. -/
def rowBit (ox : Nat) (row : Byte) (a n c : Nat) : Bool :=
  decide (ox + a ≤ c ∧ c < ox + a + n) && row.getLsbD (7 - (c - ox))

theorem rowBit_zero (ox : Nat) (row : Byte) (a c : Nat) : rowBit ox row a 0 c = false := by
  simp only [rowBit, Bool.and_eq_false_imp, decide_eq_true_eq]
  omega

theorem rowBit_succ (ox : Nat) (row : Byte) (a n c : Nat) :
    rowBit ox row a (n + 1) c =
      ((decide (c = ox + a) && row.getLsbD (7 - a)) || rowBit ox row (a + 1) n c) := by
  unfold rowBit
  by_cases h : c = ox + a
  · subst h
    simp
  · have : (ox + a ≤ c ∧ c < ox + a + (n + 1)) ↔ (ox + (a + 1) ≤ c ∧ c < ox + (a + 1) + n) := by
      omega
    simp [h, this]

/-- A drawn sprite row XORs its bits into one screen row, up to the right edge (R222, R226). -/
theorem drawColumns_spec (r : RowIx) (ox : Nat) (row : Byte) (n a : Nat) (s : State) :
    (∀ r' c, (drawColumns r ox row (List.range' a n) s).pixel r' c =
        (s.pixel r' c ^^ (decide (r' = r) && rowBit ox row a n c.val))) ∧
      (drawColumns r ox row (List.range' a n) s).reg VF =
        if ∃ c : ColIx, rowBit ox row a n c.val = true ∧ s.pixel r c = true then 1
        else s.reg VF := by
  induction n generalizing a s with
  | zero => simp [drawColumns, rowBit_zero]
  | succ n ih =>
    simp only [List.range'_succ, drawColumns, rowBit_succ]
    by_cases h : ox + a < 64
    · rw [dif_pos h]
      set t := if row.getLsbD (7 - a) = true then s.flipPixel r ⟨ox + a, h⟩ else s with ht
      obtain ⟨hp, hf⟩ := ih (a + 1) t
      have tp : ∀ r' c, t.pixel r' c = (s.pixel r' c ^^
          (decide (r' = r) && (decide (c.val = ox + a) && row.getLsbD (7 - a)))) := by
        intro r' c
        rw [ht]
        cases row.getLsbD (7 - a) <;> simp [State.pixel_flipPixel, Fin.ext_iff]
      have disj : ∀ c : ColIx, rowBit ox row (a + 1) n c.val = true → c.val ≠ ox + a := by
        intro c hc
        simp only [rowBit, Bool.and_eq_true, decide_eq_true_eq] at hc
        omega
      refine ⟨fun r' c => ?_, ?_⟩
      · rw [hp, tp]
        by_cases hc : c.val = ox + a
        · have : rowBit ox row (a + 1) n c.val = false := by
            by_contra hb
            exact disj c (by simpa using hb) hc
          simp [hc] at this ⊢
          simp [this]
        · simp [hc]
      · rw [hf]
        have tf : t.reg VF =
            if row.getLsbD (7 - a) = true ∧ s.pixel r ⟨ox + a, h⟩ = true then 1
            else s.reg VF := by
          rw [ht]
          cases row.getLsbD (7 - a) <;> simp [State.flag_flipPixel]
        have te : (∃ c : ColIx, rowBit ox row (a + 1) n c.val = true ∧ t.pixel r c = true) ↔
            ∃ c : ColIx, rowBit ox row (a + 1) n c.val = true ∧ s.pixel r c = true := by
          refine exists_congr fun c => and_congr_right fun hc => ?_
          rw [tp]
          simp [disj c hc]
        have tE : (∃ c : ColIx, ((decide (c.val = ox + a) && row.getLsbD (7 - a)) ||
              rowBit ox row (a + 1) n c.val) = true ∧ s.pixel r c = true) ↔
            (row.getLsbD (7 - a) = true ∧ s.pixel r ⟨ox + a, h⟩ = true) ∨
              ∃ c : ColIx, rowBit ox row (a + 1) n c.val = true ∧ s.pixel r c = true := by
          constructor
          · rintro ⟨c, hc, hs⟩
            rcases Bool.or_eq_true_iff.1 hc with hc | hc
            · simp only [Bool.and_eq_true, decide_eq_true_eq] at hc
              obtain rfl : c = ⟨ox + a, h⟩ := Fin.ext hc.1
              exact .inl ⟨hc.2, hs⟩
            · exact .inr ⟨c, hc, hs⟩
          · rintro (⟨hb, hs⟩ | ⟨c, hc, hs⟩)
            · exact ⟨⟨ox + a, h⟩, by simp [hb], hs⟩
            · exact ⟨c, by simp [hc], hs⟩
        rw [tf]
        simp only [te]
        exact ite_or_ite.trans (if_congr tE.symm rfl rfl)
    · rw [dif_neg h]
      have none : ∀ c : ColIx, ((decide (c.val = ox + a) && row.getLsbD (7 - a)) ||
          rowBit ox row (a + 1) n c.val) = false := by
        intro c
        have := c.isLt
        simp only [rowBit, Bool.or_eq_false_iff, Bool.and_eq_false_imp, decide_eq_true_eq]
        omega
      simp [none]

/-! ## The whole sprite -/

/-- The scan of k + m rows is that of k rows and then of m rows, if no row faults. -/
theorem drawRows_add (ox oy k m i : Nat) (s : State) :
    drawRows ox oy (k + m) i s = (drawRows ox oy k i s).andThen (drawRows ox oy m (i + k)) := by
  induction k generalizing i s with
  | zero => simp [drawRows]
  | succ k ih =>
    rw [show k + 1 + m = (k + m) + 1 by omega, drawRows, drawRows]
    split
    · split
      · rfl
      · rw [ih, show i + (k + 1) = i + 1 + k by omega]
    · cases m with
      | zero => rfl
      | succ m => rw [Flow.andThen_go, drawRows, dif_neg (by omega)]

/-- Whether rows i to i + n − 1 of the sprite at the origin (ox, oy) put a set bit on (r, c). -/
def State.scanBit (s : State) (ox oy i n : Nat) (r : RowIx) (c : ColIx) : Bool :=
  decide (oy + i ≤ r.val ∧ r.val < oy + i + n) &&
    rowBit ox (s.spriteByte (r.val - oy)) 0 8 c.val

/-- At the origin of Vx and Vy, from row 0, this is `State.spriteBit`. -/
theorem State.scanBit_eq (s : State) (x y : Reg) (n : Nat) (r : RowIx) (c : ColIx) :
    s.scanBit (originColumn (s.reg x)) (originRow (s.reg y)) 0 n r c = s.spriteBit x y n r c := by
  rw [Bool.eq_iff_iff]
  simp only [State.scanBit, State.spriteBit, rowBit, Bool.and_eq_true, decide_eq_true_eq,
    Nat.add_zero, and_assoc]

/-- Where every row that is read can be read, the scan XORs the sprite's bits into the screen, up to
the right and bottom edges, and sets VF if one of them met a set pixel (R222, R225, R226). -/
theorem drawRows_spec (ox oy n i : Nat) (s : State)
    (hr : ∀ k < n, oy + (i + k) < 32 → s.memRead (s.i.toNat + (i + k)) ≠ none) :
    ∃ f v, drawRows ox oy n i s = .go { s with fb := f, v := v } ∧
      (∀ q : Reg, q ≠ VF → v[q.val] = s.v[q.val]) ∧
      (∀ r c, State.pixel { s with fb := f, v := v } r c =
        (s.pixel r c ^^ s.scanBit ox oy i n r c)) ∧
      State.reg { s with fb := f, v := v } VF =
        if ∃ r c, s.scanBit ox oy i n r c = true ∧ s.pixel r c = true then 1 else s.reg VF := by
  induction n generalizing i s with
  | zero =>
    have none : ∀ r c, s.scanBit ox oy i 0 r c = false := by
      intro r c
      simp only [State.scanBit, Bool.and_eq_false_imp, decide_eq_true_eq]
      omega
    exact ⟨s.fb, s.v, rfl, fun _ _ => rfl, by simp [none], by simp [none]⟩
  | succ n ih =>
    by_cases h : oy + i < 32
    · obtain ⟨row, hrow⟩ := Option.ne_none_iff_exists'.1 (hr 0 (by omega) h)
      rw [Nat.add_zero] at hrow
      obtain ⟨f, v, hv, he⟩ := drawColumns_cases ⟨oy + i, h⟩ ox row (List.range 8) s
      obtain ⟨hp, hf⟩ := drawColumns_spec ⟨oy + i, h⟩ ox row 8 0 s
      rw [← List.range_eq_range', he] at hp hf
      obtain ⟨f', v', he', hv', hp', hf'⟩ := ih (i + 1) { s with fb := f, v := v }
        fun k hk hlt => by
          have := hr (k + 1) (by omega) (by omega)
          rwa [show i + (k + 1) = i + 1 + k by omega] at this
      have hbyte : s.spriteByte i = row := by rw [State.spriteByte, hrow]; rfl
      have first : ∀ r c, s.scanBit ox oy i (n + 1) r c =
          ((decide (r = ⟨oy + i, h⟩) && rowBit ox row 0 8 c.val) ||
            s.scanBit ox oy (i + 1) n r c) := by
        intro r c
        by_cases hc : r = ⟨oy + i, h⟩
        · subst hc
          simp [State.scanBit, hbyte]
        · have : (oy + i ≤ r.val ∧ r.val < oy + i + (n + 1)) ↔
              (oy + (i + 1) ≤ r.val ∧ r.val < oy + (i + 1) + n) := by
            have : r.val ≠ oy + i := fun hh => hc (Fin.ext hh)
            omega
          simp [State.scanBit, hc, this]
      have later : ∀ r c, s.scanBit ox oy (i + 1) n r c = true → r ≠ ⟨oy + i, h⟩ := by
        rintro r c hc rfl
        simp only [State.scanBit, Bool.and_eq_true, decide_eq_true_eq] at hc
        omega
      refine ⟨f', v', ?_, fun q hq => (hv' q hq).trans (hv q hq), fun r c => ?_, ?_⟩
      · rw [drawRows, dif_pos h]
        simp only [hrow, he]
        exact he'
      · refine (hp' r c).trans ?_
        rw [hp, first]
        by_cases hc : r = ⟨oy + i, h⟩
        · have : s.scanBit ox oy (i + 1) n r c = false := by
            by_contra hb
            exact later r c (by simpa using hb) hc
          change (_ ^^ s.scanBit ox oy (i + 1) n r c) = _
          rw [this]
          simp
        · simp [hc]
          rfl
      · refine hf'.trans ?_
        have tE : (∃ r c, s.scanBit ox oy i (n + 1) r c = true ∧ s.pixel r c = true) ↔
            (∃ c : ColIx, rowBit ox row 0 8 c.val = true ∧ s.pixel ⟨oy + i, h⟩ c = true) ∨
              ∃ r c, s.scanBit ox oy (i + 1) n r c = true ∧ s.pixel r c = true := by
          simp only [first]
          constructor
          · rintro ⟨r, c, hc, hs⟩
            rcases Bool.or_eq_true_iff.1 hc with hc | hc
            · simp only [Bool.and_eq_true, decide_eq_true_eq] at hc
              obtain ⟨rfl, hb⟩ := hc
              exact .inl ⟨c, hb, hs⟩
            · exact .inr ⟨r, c, hc, hs⟩
          · rintro (⟨c, hc, hs⟩ | ⟨r, c, hc, hs⟩)
            · exact ⟨_, c, by simp [hc], hs⟩
            · exact ⟨r, c, by simp [hc], hs⟩
        have te : (∃ r c, s.scanBit ox oy (i + 1) n r c = true ∧
              State.pixel { s with fb := f, v := v } r c = true) ↔
            ∃ r c, s.scanBit ox oy (i + 1) n r c = true ∧ s.pixel r c = true := by
          refine exists_congr fun r => exists_congr fun c => and_congr_right fun hc => ?_
          rw [hp]
          simp [later r c hc]
        rw [hf]
        exact (if_congr te rfl rfl).trans (ite_or_ite.trans (if_congr tE.symm rfl rfl))
    · have none : ∀ r c, s.scanBit ox oy i (n + 1) r c = false := by
        intro r c
        have := r.isLt
        simp only [State.scanBit, Bool.and_eq_false_imp, decide_eq_true_eq]
        omega
      refine ⟨s.fb, s.v, by rw [drawRows, dif_neg h], fun _ _ => rfl, ?_, ?_⟩
      · intro r c
        rw [none, Bool.xor_false]
      · rw [if_neg]
        rintro ⟨r, c, hc, -⟩
        rw [none] at hc
        cases hc

/-- What has been drawn is seen in the framebuffer and the registers alone. -/
theorem State.Drawn.congr {s t u : State} {x y : Reg} {n : Nat} (h : s.Drawn t x y n)
    (hf : u.fb = t.fb) (hv : u.v = t.v) : s.Drawn u x y n := by
  obtain ⟨h1, h2, h3, h4⟩ := h
  have hp : ∀ r c, u.pixel r c = t.pixel r c := fun r c => by simp only [State.pixel, hf]
  have hr : ∀ q, u.reg q = t.reg q := fun q => State.reg_congr hv q
  refine ⟨fun r c => (hp r c).trans (h1 r c), ?_, ?_, fun q hq => (hr q).trans (h4 q hq)⟩
  · rw [hr]; exact h2
  · rw [hr]; exact h3

/-- The scan DRW makes, with VF cleared first, where the first n rows can be read. -/
theorem drawRows_drawn (s : State) (x y : Reg) (n : Nat)
    (hr : ∀ k < n, originRow (s.reg y) + k < 32 → s.memRead (s.i.toNat + k) ≠ none) :
    ∃ f v, drawRows (originColumn (s.reg x)) (originRow (s.reg y)) n 0 (s.setReg VF 0) =
        .go { s with fb := f, v := v } ∧ s.Drawn { s with fb := f, v := v } x y n := by
  obtain ⟨f, v, he, hv, hp, hf⟩ :=
    drawRows_spec (originColumn (s.reg x)) (originRow (s.reg y)) n 0 (s.setReg VF 0)
      fun k hk hlt => by
        rw [Nat.zero_add] at hlt ⊢
        exact hr k hk hlt
  have hb : ∀ r c, (s.setReg VF 0).scanBit (originColumn (s.reg x)) (originRow (s.reg y)) 0 n r c =
      s.spriteBit x y n r c := fun r c => s.scanBit_eq x y n r c
  simp only [hb, State.pixel_setReg, State.reg_setReg_self] at hp hf
  refine ⟨f, v, he, hp, ?_, ?_, fun q hq => ?_⟩
  · refine Iff.trans (by rw [show State.reg { s with fb := f, v := v } VF = _ from hf]) ?_
    by_cases h : ∃ r c, s.spriteBit x y n r c = true ∧ s.pixel r c = true <;> simp [h]
  · rw [show State.reg { s with fb := f, v := v } VF = _ from hf]
    by_cases h : ∃ r c, s.spriteBit x y n r c = true ∧ s.pixel r c = true <;> simp [h]
  · exact (hv q (by simpa using hq)).trans (s.reg_setReg_ne 0 (by simpa using hq))

end Sys2Proof.Machine
end

