-- ==== Sys2Proof/Laws/Exec.lean ====
section
/-! SUPPORT. What `exec` and the parts of a step can do, said once. `exec` of an instruction not
named here is one update of the state, by `rfl`. -/

namespace Sys2Proof.Machine

/-! ## Instructions with more than one outcome -/

/-- Every instruction answers a next state (R121: a cycle ends in a state, halted or not). -/
theorem exec_next (i : Instr) (s : State) : ∃ t, exec i s = .next t := by
  cases i <;> exact ⟨_, rfl⟩

/-- RET pops, or halts by StackUnderflow (R151, R314). -/
theorem exec_ret_cases (s : State) :
    (∃ st w, s.stack = st ++ [w] ∧ exec .ret s = .next { s with stack := st, pc := w }) ∨
      (s.stack = [] ∧ exec .ret s = .next (s.raiseIns .stackUnderflow .noInfo)) := by
  cases h : s.pop with
  | none => exact .inr ⟨State.pop_eq_none.1 h, by simp only [exec, execRet, h]⟩
  | some p =>
    obtain ⟨w, t⟩ := p
    obtain ⟨hs, ht⟩ := State.pop_eq_some h
    refine .inl ⟨t.stack, w, hs, ?_⟩
    rw [exec, execRet, h, ht]
    rfl

/-- CALL pushes and jumps, or halts by StackOverflow (R153, R315). -/
theorem exec_call_cases (nnn : Addr) (s : State) :
    (s.sp < s.cfg.stackDepth ∧ exec (.call nnn) s = .next ((s.push s.pc).setPc (zextAddr nnn))) ∨
      (s.cfg.stackDepth ≤ s.sp ∧
        exec (.call nnn) s = .next (s.raiseIns .stackOverflow .noInfo)) := by
  by_cases h : s.cfg.stackDepth ≤ s.sp
  · exact .inr ⟨h, congrArg _ (if_pos h)⟩
  · exact .inl ⟨not_le.1 h, congrArg _ (if_neg h)⟩

/-- CLS clears, flushes and ends the batch, or halts by HostIo (R221). -/
theorem exec_cls_cases (s : State) :
    (s.flushAnswer.ok = true ∧ exec .cls s =
        .next (s.clearScreen.sendFrame.takeFlush.accept s.flushAnswer.report).endBatch) ∨
      (s.flushAnswer.ok = false ∧ exec .cls s =
        .next (s.clearScreen.sendFrame.takeFlush.raiseIns .hostIo .display)) := by
  rcases s.clearScreen.flushAndEndBatch_cases with ⟨h, e⟩ | ⟨h, e⟩
  · exact .inl ⟨h, by rw [exec, execCls, e]; rfl⟩
  · exact .inr ⟨h, by rw [exec, execCls, e]; rfl⟩

/-- DRW changes the framebuffer and VF, then flushes and ends the batch; or it halts by HostIo after
that, or by MemBounds part-way (R222). -/
theorem exec_drw_cases (x y : Reg) (n : BitVec 4) (s : State) :
    ∃ f v, (∀ q : Reg, q ≠ VF → v[q.val] = s.v[q.val]) ∧
      ((s.flushAnswer.ok = true ∧ exec (.drw x y n) s =
          .next (({ s with fb := f, v := v }.sendFrame.takeFlush.accept
            s.flushAnswer.report).endBatch)) ∨
        (s.flushAnswer.ok = false ∧ exec (.drw x y n) s =
          .next ({ s with fb := f, v := v }.sendFrame.takeFlush.raiseIns .hostIo .display)) ∨
        ∃ a, reduceAddr s.cfg.addrPolicy a = none ∧ exec (.drw x y n) s =
          .next ({ s with fb := f, v := v }.raiseIns .memBounds (.address a))) := by
  obtain ⟨f, v, hv, hd⟩ :=
    drawRows_cases (originColumn (s.reg x)) (originRow (s.reg y)) n.toNat 0 (s.setReg VF 0)
  refine ⟨f, v, fun q hq => (hv q hq).trans (s.reg_setReg_ne 0 hq), ?_⟩
  rcases hd with hd | ⟨a, ha, hd⟩
  · rcases State.flushAndEndBatch_cases { s.setReg VF 0 with fb := f, v := v } with
      ⟨h, e⟩ | ⟨h, e⟩
    · exact .inl ⟨h, by rw [exec, execDrw, hd, Flow.andThen_go, e]; rfl⟩
    · exact .inr (.inl ⟨h, by rw [exec, execDrw, hd, Flow.andThen_go, e]; rfl⟩)
  · exact .inr (.inr ⟨a, ha, by rw [exec, execDrw, hd]; rfl⟩)

/-- FX0A stores the key found, or puts pc back (R254). -/
theorem exec_ldVxK_cases (x : Reg) (s : State) :
    (∃ k, s.firstReleased = some k ∧ exec (.ldVxK x) s = .next (s.setReg x (keyByte k))) ∨
      (s.firstReleased = none ∧ exec (.ldVxK x) s = .next (s.setPc (s.pc - 2))) := by
  cases h : s.firstReleased with
  | none => exact .inr ⟨rfl, by simp only [exec, execLdVxK, h]⟩
  | some k => exact .inl ⟨k, rfl, by simp only [exec, execLdVxK, h]⟩

/-- FX18 writes ST; at a tone transition it takes an answer, and may halt by HostIo (R256, R334). -/
theorem exec_ldStVx_cases (x : Reg) (s : State) :
    ((s.reg x != 0) = s.tone ∧ exec (.ldStVx x) s = .next { s with st := s.reg x }) ∨
      ((s.reg x != 0) ≠ s.tone ∧ s.audioAnswer = true ∧
        exec (.ldStVx x) s = .next { s with st := s.reg x }.takeAudio) ∨
      ((s.reg x != 0) ≠ s.tone ∧ s.audioAnswer = false ∧ exec (.ldStVx x) s =
        .next ({ s with st := s.reg x }.takeAudio.raiseIns .hostIo .audio)) := by
  rcases s.setSound_cases (s.reg x) s.ins.addr s.ins.word with ⟨h, e⟩ | ⟨h, ha, e⟩ | ⟨h, ha, e⟩
  · exact .inl ⟨h, by rw [exec, execLdStVx, e]; rfl⟩
  · exact .inr (.inl ⟨h, ha, by rw [exec, execLdStVx, e]; rfl⟩)
  · exact .inr (.inr ⟨h, ha, by rw [exec, execLdStVx, e]; rfl⟩)

/-- FX33 changes memory, or halts by MemBounds part-way (R283). -/
theorem exec_ldBVx_cases (x : Reg) (s : State) :
    ∃ m, (Memory.wf s.cfg s.mem → Memory.wf s.cfg m) ∧
      (exec (.ldBVx x) s = .next { s with mem := m } ∨
        ∃ a, reduceAddr s.cfg.addrPolicy a = none ∧ exec (.ldBVx x) s =
          .next ({ s with mem := m }.raiseIns .memBounds (.address a))) := by
  obtain ⟨m, hm, e | ⟨a, ha, e⟩⟩ := storeBytes_cases (bcdDigits (s.reg x)) s.i.toNat s
  · exact ⟨m, hm, .inl (by rw [exec, execLdBVx, e]; rfl)⟩
  · exact ⟨m, hm, .inr ⟨a, ha, by rw [exec, execLdBVx, e]; rfl⟩⟩

/-- FX55 changes memory and I, or halts by MemBounds part-way (R285). -/
theorem exec_ldMemVx_cases (x : Reg) (s : State) :
    ∃ m w, (Memory.wf s.cfg s.mem → Memory.wf s.cfg m) ∧
      (exec (.ldMemVx x) s = .next { s with mem := m, i := w } ∨
        ∃ a, reduceAddr s.cfg.addrPolicy a = none ∧ exec (.ldMemVx x) s =
          .next ({ s with mem := m, i := w }.raiseIns .memBounds (.address a))) := by
  obtain ⟨m, w, hm, e | ⟨a, ha, e⟩⟩ := dumpRegs_cases (regsUpTo x) s
  · exact ⟨m, w, hm, .inl (by rw [exec, execLdMemVx, e]; rfl)⟩
  · exact ⟨m, w, hm, .inr ⟨a, ha, by rw [exec, execLdMemVx, e]; rfl⟩⟩

/-- FX65 changes the registers up to x and I, or halts by MemBounds part-way (R286). -/
theorem exec_ldVxMem_cases (x : Reg) (s : State) :
    ∃ v w, (∀ q : Reg, ¬ q ≤ x → v[q.val] = s.v[q.val]) ∧
      (exec (.ldVxMem x) s = .next { s with v := v, i := w } ∨
        ∃ a, reduceAddr s.cfg.addrPolicy a = none ∧ exec (.ldVxMem x) s =
          .next ({ s with v := v, i := w }.raiseIns .memBounds (.address a))) := by
  obtain ⟨v, w, hv, e | ⟨a, ha, e⟩⟩ := loadRegs_cases (regsUpTo x) s
  · exact ⟨v, w, fun q hq => hv q (mt (mem_regsUpTo x q).1 hq),
      .inl (by rw [exec, execLdVxMem, e]; rfl)⟩
  · exact ⟨v, w, fun q hq => hv q (mt (mem_regsUpTo x q).1 hq),
      .inr ⟨a, ha, by rw [exec, execLdVxMem, e]; rfl⟩⟩

/-- A skip changes pc only, in every state (R150). -/
theorem State.skipIf_eq (s : State) (c : Bool) :
    s.skipIf c = s.setPc (if c then s.pc + 2 else s.pc) := by cases c <;> rfl

/-- No instruction writes the configuration, the slot count, the two markers of the run, or the
latched address and word (R8, R130). -/
theorem exec_keeps {i : Instr} {s t : State} (h : exec i s = .next t) :
    t = { t with cfg := s.cfg, slot := s.slot, ended := s.ended, inTick := s.inTick,
                 ins := s.ins } := by
  cases i
  case cls => rcases exec_cls_cases s with ⟨_, e⟩ | ⟨_, e⟩ <;> cases e.symm.trans h <;> rfl
  case drw x y n =>
    obtain ⟨f, v, _, ⟨_, e⟩ | ⟨_, e⟩ | ⟨_, _, e⟩⟩ := exec_drw_cases x y n s <;>
      cases e.symm.trans h <;> rfl
  case ret => rcases exec_ret_cases s with ⟨_, _, _, e⟩ | ⟨_, e⟩ <;> cases e.symm.trans h <;> rfl
  case call nnn =>
    rcases exec_call_cases nnn s with ⟨_, e⟩ | ⟨_, e⟩ <;> cases e.symm.trans h <;> rfl
  case ldVxK x =>
    rcases exec_ldVxK_cases x s with ⟨_, _, e⟩ | ⟨_, e⟩ <;> cases e.symm.trans h <;> rfl
  case ldStVx x =>
    rcases exec_ldStVx_cases x s with ⟨_, e⟩ | ⟨_, _, e⟩ | ⟨_, _, e⟩ <;>
      cases e.symm.trans h <;> rfl
  case ldBVx x =>
    obtain ⟨_, _, e | ⟨_, _, e⟩⟩ := exec_ldBVx_cases x s <;> cases e.symm.trans h <;> rfl
  case ldMemVx x =>
    obtain ⟨_, _, _, e | ⟨_, _, e⟩⟩ := exec_ldMemVx_cases x s <;> cases e.symm.trans h <;> rfl
  case ldVxMem x =>
    obtain ⟨_, _, _, e | ⟨_, _, e⟩⟩ := exec_ldVxMem_cases x s <;> cases e.symm.trans h <;> rfl
  case seImm | sneImm | seReg | sneReg | skp | sknp => cases h; rw [State.skipIf_eq]; rfl
  all_goals cases h; rfl

/-- In particular the configuration stands. -/
theorem exec_cfg {i : Instr} {s t : State} (h : exec i s = .next t) : t.cfg = s.cfg :=
  (congrArg State.cfg (exec_keeps h) :)

/-! ## The parts of a step -/

theorem step_inBatch {s : State} (h : s.inBatch) : step s = runSlot s := by
  obtain ⟨⟨h1, h2⟩, h3, h4⟩ := h
  simp [step, h1, h2, h3, h4]

theorem step_endTick {s : State} (h : s.running) (h3 : s.inTick = true)
    (h4 : s.batchOpen = false) : step s = .next s.endTick := by
  obtain ⟨h1, h2⟩ := h
  simp [step, h1, h2, h3, h4]

theorem step_beginTick {s : State} (h : s.running) (h3 : s.inTick = false) :
    step s = .next s.beginTick := by
  obtain ⟨h1, h2⟩ := h
  simp [step, h1, h2, h3]

/-- A state that has a next state is running, and is at one of the three parts of a frame tick. -/
theorem step_cases {s t : State} (h : step s = .next t) :
    s.running ∧
      ((s.inTick = false ∧ t = s.beginTick) ∨
        (s.inTick = true ∧ s.batchOpen = false ∧ t = s.endTick) ∨
        (s.inTick = true ∧ s.batchOpen = true ∧ runSlot s = .next t)) := by
  simp only [step] at h
  split at h
  · cases h
  · split at h
    · cases h
    · rename_i h1 h2
      refine ⟨⟨by simpa using h1, by simpa using h2⟩, ?_⟩
      split at h
      · rename_i h3
        split at h
        · exact .inr (.inr ⟨h3, ‹_›, h⟩)
        · cases h
          exact .inr (.inl ⟨h3, by simpa using ‹¬ s.batchOpen = true›, rfl⟩)
      · cases h
        exact .inl ⟨by simpa using ‹¬ s.inTick = true›, rfl⟩

/-- A cycle halts by a fetch MemBounds, or by UnknownOpcode, or is `exec` of the decoded
instruction; and a slot is counted (R122, R128). -/
theorem runSlot_cases {s t : State} (h : runSlot s = .next t) :
    ∃ u, t = u.countSlot ∧
      ((∃ a, s.fetch = .bounds a ∧ u = s.raise .memBounds (.address a) s.pc 0) ∨
        (∃ w why, s.fetch = .word w ∧ decodeWord s.cfg.lenientDecode w = .unknown why ∧
          u = (s.advance w).raiseIns .unknownOpcode .noInfo) ∨
        ∃ w i, s.fetch = .word w ∧ decodeWord s.cfg.lenientDecode w = .ok i ∧
          exec i (s.advance w) = .next u) := by
  simp only [runSlot] at h
  split at h
  · rename_i u hu
    cases h
    refine ⟨u, rfl, ?_⟩
    unfold cycle at hu
    split at hu
    · cases hu
      exact .inl ⟨_, ‹_›, rfl⟩
    · split at hu
      · cases hu
        exact .inr (.inl ⟨_, _, ‹_›, ‹_›, rfl⟩)
      · exact .inr (.inr ⟨_, _, ‹_›, ‹_›, hu⟩)
  · cases h
  · cases h

/-- A cycle counts one slot and keeps the configuration and the markers of the run (R128). -/
theorem runSlot_keeps {s t : State} (h : runSlot s = .next t) :
    t = { t with cfg := s.cfg, slot := s.slot + 1, ended := s.ended, inTick := s.inTick } := by
  obtain ⟨u, rfl, ⟨_, _, rfl⟩ | ⟨_, _, _, _, rfl⟩ | ⟨w, i, _, _, hi⟩⟩ := runSlot_cases h
  · rfl
  · rfl
  · have hk := exec_keeps hi
    rw [hk]
    rfl

theorem runSlot_cfg {s t : State} (h : runSlot s = .next t) : t.cfg = s.cfg :=
  (congrArg State.cfg (runSlot_keeps h) :)

theorem runSlot_slot {s t : State} (h : runSlot s = .next t) : t.slot = s.slot + 1 :=
  (congrArg State.slot (runSlot_keeps h) :)

theorem runSlot_ended {s t : State} (h : runSlot s = .next t) : t.ended = s.ended :=
  (congrArg State.ended (runSlot_keeps h) :)

theorem runSlot_inTick {s t : State} (h : runSlot s = .next t) : t.inTick = s.inTick :=
  (congrArg State.inTick (runSlot_keeps h) :)

/-- Every cycle answers a next state (R121). -/
theorem cycle_next (s : State) : ∃ t, cycle s = .next t := by
  unfold cycle
  split
  · exact ⟨_, rfl⟩
  · split
    · exact ⟨_, rfl⟩
    · exact exec_next ..

theorem runSlot_next (s : State) : ∃ t, runSlot s = .next t := by
  obtain ⟨t, h⟩ := cycle_next s
  exact ⟨t.countSlot, by rw [runSlot, h]⟩

theorem countDown_transition (b : Byte) : (countDown b != 0) = (b != 0) ↔ b ≠ 1 := by
  revert b; decide

/-- What a timer tick does (R321): both timers count down; where ST falls to 0 the host is asked,
and its failure halts the CORE (R317). -/
theorem State.timerTick_cases (s : State) :
    (s.st ≠ 1 ∧ s.timerTick = .go { s with dt := countDown s.dt, st := countDown s.st }) ∨
      (s.st = 1 ∧ s.audioAnswer = true ∧
        s.timerTick = .go { s with dt := countDown s.dt, st := countDown s.st }.takeAudio) ∨
      (s.st = 1 ∧ s.audioAnswer = false ∧
        s.timerTick = .halt ({ s with dt := countDown s.dt, st := countDown s.st }.takeAudio.raise
          .hostIo .audio (Config.freeTimerFaultPc s.host.asked) 0)) := by
  rcases (s.setDt (countDown s.dt)).setSound_cases (countDown s.st)
    (Config.freeTimerFaultPc s.host.asked) 0 with ⟨h1, h2⟩ | ⟨h1, h3, h2⟩ | ⟨h1, h3, h2⟩
  · exact .inl ⟨(countDown_transition _).1 h1, h2⟩
  · exact .inr (.inl ⟨by_contra fun h => h1 ((countDown_transition _).2 h), h3, h2⟩)
  · exact .inr (.inr ⟨by_contra fun h => h1 ((countDown_transition _).2 h), h3, h2⟩)

/-- What a tick starts with (R130): slot and batch_end cleared, and a timer tick under
`BeforeBatch`. -/
theorem State.beginTick_cases (s : State) :
    (s.cfg.timerPhase = .afterBatch ∧
        s.beginTick = { s with slot := 0, batchEnd := false, inTick := true }) ∨
      (s.cfg.timerPhase = .beforeBatch ∧ s.beginTick =
        ({ s with slot := 0, batchEnd := false, inTick := true } : State).timerTick.state) := by
  cases h : s.cfg.timerPhase
  · exact .inl ⟨rfl, by simp [State.beginTick, State.timerAt, h]⟩
  · exact .inr ⟨rfl, by simp [State.beginTick, State.timerAt, h]⟩

/-- What a tick ends with (R130): a timer tick under `AfterBatch`, then the Poll and the end of the
tick, unless an audio failure halts the CORE. -/
theorem State.endTick_cases (s : State) :
    (s.cfg.timerPhase = .beforeBatch ∧ s.endTick = s.poll.closeTick) ∨
      (s.cfg.timerPhase = .afterBatch ∧ s.st ≠ 1 ∧ s.endTick =
        { s with dt := countDown s.dt, st := countDown s.st }.poll.closeTick) ∨
      (s.cfg.timerPhase = .afterBatch ∧ s.st = 1 ∧ s.audioAnswer = true ∧ s.endTick =
        { s with dt := countDown s.dt, st := countDown s.st }.takeAudio.poll.closeTick) ∨
      (s.cfg.timerPhase = .afterBatch ∧ s.st = 1 ∧ s.audioAnswer = false ∧ s.endTick =
        { s with dt := countDown s.dt, st := countDown s.st }.takeAudio.raise
          .hostIo .audio (Config.freeTimerFaultPc s.host.asked) 0) := by
  cases h : s.cfg.timerPhase
  · rcases s.timerTick_cases with ⟨h1, e⟩ | ⟨h1, h2, e⟩ | ⟨h1, h2, e⟩
    · exact .inr (.inl ⟨rfl, h1, by simp only [State.endTick, State.timerAt, h, if_true, e]; rfl⟩)
    · refine .inr (.inr (.inl ⟨rfl, h1, h2, ?_⟩))
      simp only [State.endTick, State.timerAt, h, if_true, e]
      rfl
    · refine .inr (.inr (.inr ⟨rfl, h1, h2, ?_⟩))
      simp only [State.endTick, State.timerAt, h, if_true, e]
      rfl
  · exact .inl ⟨rfl, by simp [State.endTick, State.timerAt, h]⟩

/-- A run may be entered from its first step. -/
theorem Steps.cons {n : Nat} {s t u : State} (h : step s = .next t) (ht : Steps n t u) :
    Steps (n + 1) s u := by
  induction ht with
  | zero => exact .succ (.zero s) h
  | succ _ hs ih => exact .succ (ih h) hs

/-- What the loader leaves (R350): memory alone is written, each byte of the program stands at its
address, and every other byte is as it was. -/
theorem pokeBytes_spec (bs : List Byte) (a : Nat) (s : State) (h : a + bs.length ≤ memSize) :
    ∃ m, (Memory.wf s.cfg s.mem → Memory.wf s.cfg m) ∧ pokeBytes bs a s = { s with mem := m } ∧
      ∀ k, memGet s.cfg m k =
        if a ≤ k ∧ k < a + bs.length then (bs[k - a]?).getD 0 else memGet s.cfg s.mem k := by
  induction bs generalizing a s with
  | nil =>
    refine ⟨s.mem, id, rfl, fun k => (if_neg ?_).symm⟩
    simp only [List.length_nil]
    omega
  | cons b bs ih =>
    simp only [List.length_cons] at h
    obtain ⟨m, hm, he, hg⟩ := ih (a + 1) (s.poke a b) (by omega)
    refine ⟨m, fun hw => hm (memSet_wf b (by omega) hw), he, fun k => (hg k).trans ?_⟩
    rw [show memGet (s.poke a b).cfg (s.poke a b).mem k = (s.poke a b).peek k from rfl,
      State.peek_poke, List.length_cons]
    by_cases hk : k = a
    · subst hk
      rw [if_neg (by omega), if_pos rfl, if_pos (by omega)]
      simp
    · by_cases hk' : a + 1 ≤ k ∧ k < a + 1 + bs.length
      · rw [if_pos hk', if_pos (by omega)]
        obtain ⟨j, rfl⟩ := Nat.exists_eq_add_of_le hk'.1
        rw [show a + 1 + j - (a + 1) = j by omega, show a + 1 + j - a = j + 1 by omega,
          List.getElem?_cons_succ]
      · rw [if_neg hk', if_neg hk, if_neg (by omega)]
        rfl

/-- Placing a word for the next fetch keeps the canonical form of memory, and the configuration. -/
theorem State.place_wf (s : State) (a : Nat) (b : Byte) (h : Memory.wf s.cfg s.mem) :
    (s.place a b).cfg = s.cfg ∧ Memory.wf s.cfg (s.place a b).mem := by
  unfold State.place
  cases hw : s.memWrite a b with
  | none => exact ⟨rfl, h⟩
  | some t =>
    obtain ⟨A, -, hlt, rfl⟩ := State.memWrite_eq_some hw
    exact ⟨rfl, memSet_wf b hlt h⟩

theorem State.withFetchWord_wf (s : State) (nbits w : Nat) (h : Memory.wf s.cfg s.mem) :
    Memory.wf s.cfg (s.withFetchWord nbits w).mem := by
  have hr : s.readyToFetch.cfg = s.cfg ∧ s.readyToFetch.mem = s.mem := by
    unfold State.readyToFetch
    split <;> exact ⟨rfl, rfl⟩
  obtain ⟨h1, h2⟩ := s.readyToFetch.place_wf s.pc.toNat (tableBytes nbits w).1
    (by rw [hr.1, hr.2]; exact h)
  obtain ⟨-, h3⟩ := (s.readyToFetch.place s.pc.toNat (tableBytes nbits w).1).place_wf
    (s.pc.toNat + 1) (tableBytes nbits w).2 (by rw [h1]; exact h2)
  rw [h1, hr.1] at h3
  exact h3

end Sys2Proof.Machine
end

