-- ==== Sys2Proof/Laws/Output.lean ====
section
/-! SUPPORT. The shared operations do not look at what has been sent to the display (R76, R332): run
from a state with another output, they end in the same state with that output. -/

namespace Sys2Proof.Machine

/-- The state a flow has reached, with another output. -/
def Flow.withOut (o : DisplayOut) : Flow → Flow
  | .go s   => .go { s with out := o }
  | .halt s => .halt { s with out := o }

theorem storeBytes_withOut (o : DisplayOut) (bs : List Byte) (a : Nat) (s : State) :
    storeBytes bs a { s with out := o } = (storeBytes bs a s).withOut o := by
  induction bs generalizing a s with
  | nil => rfl
  | cons b bs ih =>
    simp only [storeBytes]
    cases h : reduceAddr s.cfg.addrPolicy a with
    | none => simp only [State.memWrite, h, Option.map_none]; rfl
    | some A => simp only [State.memWrite, h, Option.map_some]; exact ih _ (s.poke A b)

theorem dumpRegs_withOut (o : DisplayOut) (rs : List Reg) (s : State) :
    dumpRegs rs { s with out := o } = (dumpRegs rs s).withOut o := by
  induction rs generalizing s with
  | nil => rfl
  | cons r rs ih =>
    simp only [dumpRegs]
    cases h : reduceAddr s.cfg.addrPolicy s.i.toNat with
    | none => simp only [State.memWrite, h, Option.map_none]; rfl
    | some A =>
      simp only [State.memWrite, h, Option.map_some]
      exact ih ((s.poke A (s.reg r)).setI (s.i + 1))

theorem loadRegs_withOut (o : DisplayOut) (rs : List Reg) (s : State) :
    loadRegs rs { s with out := o } = (loadRegs rs s).withOut o := by
  induction rs generalizing s with
  | nil => rfl
  | cons r rs ih =>
    simp only [loadRegs]
    rw [show State.memRead { s with out := o } s.i.toNat = s.memRead s.i.toNat from rfl]
    cases s.memRead s.i.toNat with
    | none => rfl
    | some b => exact ih ((s.setReg r b).setI (s.i + 1))

theorem State.flipPixel_withOut (o : DisplayOut) (s : State) (r : RowIx) (c : ColIx) :
    State.flipPixel { s with out := o } r c = { s.flipPixel r c with out := o } := by
  unfold State.flipPixel
  rw [show State.pixel { s with out := o } r c = s.pixel r c from rfl]
  cases s.pixel r c <;> rfl

theorem drawColumns_withOut (o : DisplayOut) (r : RowIx) (ox : Nat) (row : Byte) (js : List Nat)
    (s : State) :
    drawColumns r ox row js { s with out := o } =
      { drawColumns r ox row js s with out := o } := by
  induction js generalizing s with
  | nil => rfl
  | cons j js ih =>
    simp only [drawColumns]
    split
    · split
      · rw [State.flipPixel_withOut, ih]
      · exact ih s
    · rfl

theorem drawRows_withOut (o : DisplayOut) (ox oy k i : Nat) (s : State) :
    drawRows ox oy k i { s with out := o } = (drawRows ox oy k i s).withOut o := by
  induction k generalizing i s with
  | zero => rfl
  | succ k ih =>
    simp only [drawRows]
    split
    · rw [show State.memRead { s with out := o } (s.i.toNat + i) = s.memRead (s.i.toNat + i)
        from rfl]
      cases s.memRead (s.i.toNat + i) with
      | none => rfl
      | some row => simp only [drawColumns_withOut]; exact ih _ _
    · rfl

/-- A Flush sends the framebuffer whatever was sent before; only the number of frames differs. -/
theorem State.flushAndEndBatch_withOut (o : DisplayOut) (s : State) :
    { (State.flushAndEndBatch { s with out := o }).state with
      out := s.flushAndEndBatch.state.out } = s.flushAndEndBatch.state := by
  rcases s.flushAndEndBatch_cases with ⟨h, e⟩ | ⟨h, e⟩ <;>
    rcases State.flushAndEndBatch_cases { s with out := o } with ⟨h', e'⟩ | ⟨h', e'⟩ <;>
    rw [e, e']
  · rfl
  · exact absurd h (by rw [show s.flushAnswer.ok = false from h']; simp)
  · exact absurd h (by rw [show s.flushAnswer.ok = true from h']; simp)
  · rfl

end Sys2Proof.Machine
end

