-- ==== Sys2Proof/Laws/PerInstr.lean ====
section
/-! SUPPORT. The statements made of every instruction, one lemma per constructor. -/

namespace Sys2Proof.Laws.FitsRow

/-- R95: the word of an instruction is selected by the instruction's own row. -/
def Statement (i : Instr) : Prop := encode i &&& (rowOf i).mask = (rowOf i).pattern

theorem cls : Statement (.cls) := by
  unfold Statement; decide

theorem ret : Statement (.ret) := by
  unfold Statement; decide

theorem jp (nnn : Addr) : Statement (.jp nnn) := (formatA_mask 0x1 nnn).trans rfl

theorem call (nnn : Addr) : Statement (.call nnn) := (formatA_mask 0x2 nnn).trans rfl

theorem seImm (x : Reg) (nn : Byte) : Statement (.seImm x nn) := (formatXK_mask 0x3 x nn).trans rfl

theorem sneImm (x : Reg) (nn : Byte) : Statement (.sneImm x nn) := (formatXK_mask 0x4 x nn).trans rfl

theorem seReg (x : Reg) (y : Reg) : Statement (.seReg x y) := (formatXY_mask_subop 0x5 x y 0x0).trans rfl

theorem ldImm (x : Reg) (nn : Byte) : Statement (.ldImm x nn) := (formatXK_mask 0x6 x nn).trans rfl

theorem addImm (x : Reg) (nn : Byte) : Statement (.addImm x nn) := (formatXK_mask 0x7 x nn).trans rfl

theorem ldReg (x : Reg) (y : Reg) : Statement (.ldReg x y) := (formatXY_mask_subop 0x8 x y 0x0).trans rfl

theorem orReg (x : Reg) (y : Reg) : Statement (.orReg x y) := (formatXY_mask_subop 0x8 x y 0x1).trans rfl

theorem andReg (x : Reg) (y : Reg) : Statement (.andReg x y) := (formatXY_mask_subop 0x8 x y 0x2).trans rfl

theorem xorReg (x : Reg) (y : Reg) : Statement (.xorReg x y) := (formatXY_mask_subop 0x8 x y 0x3).trans rfl

theorem addReg (x : Reg) (y : Reg) : Statement (.addReg x y) := (formatXY_mask_subop 0x8 x y 0x4).trans rfl

theorem subReg (x : Reg) (y : Reg) : Statement (.subReg x y) := (formatXY_mask_subop 0x8 x y 0x5).trans rfl

theorem shrReg (x : Reg) (y : Reg) : Statement (.shrReg x y) := (formatXY_mask_subop 0x8 x y 0x6).trans rfl

theorem subnReg (x : Reg) (y : Reg) : Statement (.subnReg x y) := (formatXY_mask_subop 0x8 x y 0x7).trans rfl

theorem shlReg (x : Reg) (y : Reg) : Statement (.shlReg x y) := (formatXY_mask_subop 0x8 x y 0xE).trans rfl

theorem sneReg (x : Reg) (y : Reg) : Statement (.sneReg x y) := (formatXY_mask_subop 0x9 x y 0x0).trans rfl

theorem ldI (nnn : Addr) : Statement (.ldI nnn) := (formatA_mask 0xA nnn).trans rfl

theorem jpV0 (nnn : Addr) : Statement (.jpV0 nnn) := (formatA_mask 0xB nnn).trans rfl

theorem rnd (x : Reg) (nn : Byte) : Statement (.rnd x nn) := (formatXK_mask 0xC x nn).trans rfl

theorem drw (x : Reg) (y : Reg) (n : BitVec 4) : Statement (.drw x y n) := (formatXY_mask 0xD x y n).trans rfl

theorem skp (x : Reg) : Statement (.skp x) := (formatXK_mask_subop 0xE x 0x9E).trans rfl

theorem sknp (x : Reg) : Statement (.sknp x) := (formatXK_mask_subop 0xE x 0xA1).trans rfl

theorem ldVxDt (x : Reg) : Statement (.ldVxDt x) := (formatXK_mask_subop 0xF x 0x07).trans rfl

theorem ldVxK (x : Reg) : Statement (.ldVxK x) := (formatXK_mask_subop 0xF x 0x0A).trans rfl

theorem ldDtVx (x : Reg) : Statement (.ldDtVx x) := (formatXK_mask_subop 0xF x 0x15).trans rfl

theorem ldStVx (x : Reg) : Statement (.ldStVx x) := (formatXK_mask_subop 0xF x 0x18).trans rfl

theorem addIVx (x : Reg) : Statement (.addIVx x) := (formatXK_mask_subop 0xF x 0x1E).trans rfl

theorem ldFVx (x : Reg) : Statement (.ldFVx x) := (formatXK_mask_subop 0xF x 0x29).trans rfl

theorem ldBVx (x : Reg) : Statement (.ldBVx x) := (formatXK_mask_subop 0xF x 0x33).trans rfl

theorem ldMemVx (x : Reg) : Statement (.ldMemVx x) := (formatXK_mask_subop 0xF x 0x55).trans rfl

theorem ldVxMem (x : Reg) : Statement (.ldVxMem x) := (formatXK_mask_subop 0xF x 0x65).trans rfl

end Sys2Proof.Laws.FitsRow

namespace Sys2Proof.Laws.OperandsInRange

/-- R105: the operands an instruction carries pass the assembler's range checks. -/
def Statement (i : Instr) : Prop := i.operands.wellFormed = true

theorem inRange (x y : Reg) (n : BitVec 4) (nn : Byte) (nnn : Addr) :
    RawOperands.wellFormed ⟨x, y, n.toNat, nn.toNat, nnn.toNat⟩ = true := by
  have := x.isLt
  have := y.isLt
  have := n.isLt
  have := nn.isLt
  have := nnn.isLt
  simp only [RawOperands.wellFormed, Bool.and_eq_true, decide_eq_true_eq]
  omega

theorem cls : Statement (.cls) :=
  inRange 0 0 0 0 0

theorem ret : Statement (.ret) :=
  inRange 0 0 0 0 0

theorem jp (nnn : Addr) : Statement (.jp nnn) :=
  inRange 0 0 0 0 nnn

theorem call (nnn : Addr) : Statement (.call nnn) :=
  inRange 0 0 0 0 nnn

theorem seImm (x : Reg) (nn : Byte) : Statement (.seImm x nn) :=
  inRange x 0 0 nn 0

theorem sneImm (x : Reg) (nn : Byte) : Statement (.sneImm x nn) :=
  inRange x 0 0 nn 0

theorem seReg (x : Reg) (y : Reg) : Statement (.seReg x y) :=
  inRange x y 0 0 0

theorem ldImm (x : Reg) (nn : Byte) : Statement (.ldImm x nn) :=
  inRange x 0 0 nn 0

theorem addImm (x : Reg) (nn : Byte) : Statement (.addImm x nn) :=
  inRange x 0 0 nn 0

theorem ldReg (x : Reg) (y : Reg) : Statement (.ldReg x y) :=
  inRange x y 0 0 0

theorem orReg (x : Reg) (y : Reg) : Statement (.orReg x y) :=
  inRange x y 0 0 0

theorem andReg (x : Reg) (y : Reg) : Statement (.andReg x y) :=
  inRange x y 0 0 0

theorem xorReg (x : Reg) (y : Reg) : Statement (.xorReg x y) :=
  inRange x y 0 0 0

theorem addReg (x : Reg) (y : Reg) : Statement (.addReg x y) :=
  inRange x y 0 0 0

theorem subReg (x : Reg) (y : Reg) : Statement (.subReg x y) :=
  inRange x y 0 0 0

theorem shrReg (x : Reg) (y : Reg) : Statement (.shrReg x y) :=
  inRange x y 0 0 0

theorem subnReg (x : Reg) (y : Reg) : Statement (.subnReg x y) :=
  inRange x y 0 0 0

theorem shlReg (x : Reg) (y : Reg) : Statement (.shlReg x y) :=
  inRange x y 0 0 0

theorem sneReg (x : Reg) (y : Reg) : Statement (.sneReg x y) :=
  inRange x y 0 0 0

theorem ldI (nnn : Addr) : Statement (.ldI nnn) :=
  inRange 0 0 0 0 nnn

theorem jpV0 (nnn : Addr) : Statement (.jpV0 nnn) :=
  inRange 0 0 0 0 nnn

theorem rnd (x : Reg) (nn : Byte) : Statement (.rnd x nn) :=
  inRange x 0 0 nn 0

theorem drw (x : Reg) (y : Reg) (n : BitVec 4) : Statement (.drw x y n) :=
  inRange x y n 0 0

theorem skp (x : Reg) : Statement (.skp x) :=
  inRange x 0 0 0 0

theorem sknp (x : Reg) : Statement (.sknp x) :=
  inRange x 0 0 0 0

theorem ldVxDt (x : Reg) : Statement (.ldVxDt x) :=
  inRange x 0 0 0 0

theorem ldVxK (x : Reg) : Statement (.ldVxK x) :=
  inRange x 0 0 0 0

theorem ldDtVx (x : Reg) : Statement (.ldDtVx x) :=
  inRange x 0 0 0 0

theorem ldStVx (x : Reg) : Statement (.ldStVx x) :=
  inRange x 0 0 0 0

theorem addIVx (x : Reg) : Statement (.addIVx x) :=
  inRange x 0 0 0 0

theorem ldFVx (x : Reg) : Statement (.ldFVx x) :=
  inRange x 0 0 0 0

theorem ldBVx (x : Reg) : Statement (.ldBVx x) :=
  inRange x 0 0 0 0

theorem ldMemVx (x : Reg) : Statement (.ldMemVx x) :=
  inRange x 0 0 0 0

theorem ldVxMem (x : Reg) : Statement (.ldVxMem x) :=
  inRange x 0 0 0 0

end Sys2Proof.Laws.OperandsInRange
end

