-- ==== Sys2Proof/Tests/Slice0.lean ====
section
/-! SUPPORT. Tests of the model by evaluation. The expected results are those of 95_test_vectors.md
(named by their ids), 30_encoding.md and 10_state.md. After them stands, for every statement of
Obligations.lean that has hypotheses, a witness: a state and operands that meet them. -/

namespace Sys2Proof.Tests

open Sys2Proof Sys2Proof.Machine

/-! ## Well-formedness: each check refuses an ill-formed term -/

theorem test_wellFormed_accepts : RawOperands.wellFormed ⟨15, 15, 0xF, 0xFF, 0xFFF⟩ = true := by decide
theorem test_wellFormed_x : RawOperands.wellFormed { x := 16 } = false := by decide
theorem test_wellFormed_y : RawOperands.wellFormed { y := 16 } = false := by decide
theorem test_wellFormed_n : RawOperands.wellFormed { n := 0x10 } = false := by decide
theorem test_wellFormed_nn : RawOperands.wellFormed { nn := 0x100 } = false := by decide
theorem test_wellFormed_nnn : RawOperands.wellFormed { nnn := 0x1000 } = false := by decide
theorem test_assemble : assemble "DRW_Vx__Vy__n" { x := 1, y := 2, n := 10 } = some (.drw 1 2 10) ∧
    assemble "DRW_Vx__Vy__n" { x := 1, y := 2, n := 16 } = none ∧ assemble "SYS_nnn" {} = none := by decide
theorem test_config_default : Config.default.wellFormed = true := by decide
theorem test_config_font_length :
    Config.wellFormed { Config.default with fontData := [0xF0] } = false := by decide
theorem test_config_font_place :
    Config.wellFormed { Config.default with fontBase := 4017 } = false := by decide
theorem test_config_wait_key :
    Config.wellFormed { Config.default with waitKeyMax := 16 } = false := by decide

theorem test_program_longest : programFits (List.replicate 3584 0) = true := by
  rw [programFits, List.length_replicate]; decide

theorem test_program_too_long : programFits (List.replicate 3585 0) = false := by
  rw [programFits, List.length_replicate]; decide

/-! ## Decoding: the word of each row, bit by bit from R95 (x = 1, y = 2, the other fields as named) -/

theorem test_decode_control :
    decodeWord false 0b0000000011101110 = .ok .ret ∧
    decodeWord false 0b0001001000110100 = .ok (.jp 0x234) ∧
    decodeWord false 0b0010001000110100 = .ok (.call 0x234) ∧
    decodeWord false 0b1011001000110100 = .ok (.jpV0 0x234) := by decide

theorem test_decode_skips :
    decodeWord false 0b0011000100110100 = .ok (.seImm 1 0x34) ∧
    decodeWord false 0b0100000100110100 = .ok (.sneImm 1 0x34) ∧
    decodeWord false 0b0101000100100000 = .ok (.seReg 1 2) ∧
    decodeWord false 0b1001000100100000 = .ok (.sneReg 1 2) := by decide

theorem test_decode_loads :
    decodeWord false 0b0110000100110100 = .ok (.ldImm 1 0x34) ∧
    decodeWord false 0b0111000100110100 = .ok (.addImm 1 0x34) ∧
    decodeWord false 0b1000000100100000 = .ok (.ldReg 1 2) ∧
    decodeWord false 0b1100000100110100 = .ok (.rnd 1 0x34) := by decide

theorem test_decode_alu :
    decodeWord false 0b1000000100100001 = .ok (.orReg 1 2) ∧
    decodeWord false 0b1000000100100010 = .ok (.andReg 1 2) ∧
    decodeWord false 0b1000000100100011 = .ok (.xorReg 1 2) ∧
    decodeWord false 0b1000000100100100 = .ok (.addReg 1 2) ∧
    decodeWord false 0b1000000100100101 = .ok (.subReg 1 2) ∧
    decodeWord false 0b1000000100100110 = .ok (.shrReg 1 2) ∧
    decodeWord false 0b1000000100100111 = .ok (.subnReg 1 2) ∧
    decodeWord false 0b1000000100101110 = .ok (.shlReg 1 2) := by decide

theorem test_decode_display :
    decodeWord false 0b0000000011100000 = .ok .cls ∧
    decodeWord false 0b1101000100101010 = .ok (.drw 1 2 0xA) := by decide

theorem test_decode_keys_timers :
    decodeWord false 0b1110000110011110 = .ok (.skp 1) ∧
    decodeWord false 0b1110000110100001 = .ok (.sknp 1) ∧
    decodeWord false 0b1111000100000111 = .ok (.ldVxDt 1) ∧
    decodeWord false 0b1111000100001010 = .ok (.ldVxK 1) ∧
    decodeWord false 0b1111000100010101 = .ok (.ldDtVx 1) ∧
    decodeWord false 0b1111000100011000 = .ok (.ldStVx 1) := by decide

theorem test_decode_index_memory :
    decodeWord false 0b1010001000110100 = .ok (.ldI 0x234) ∧
    decodeWord false 0b1111000100011110 = .ok (.addIVx 1) ∧
    decodeWord false 0b1111000100101001 = .ok (.ldFVx 1) ∧
    decodeWord false 0b1111000100110011 = .ok (.ldBVx 1) ∧
    decodeWord false 0b1111000101010101 = .ok (.ldMemVx 1) ∧
    decodeWord false 0b1111000101100101 = .ok (.ldVxMem 1) := by decide

/-- DC1, DC2, DC6–DC11. -/
theorem test_decode_unknown :
    [0x0000, 0x0123, 0x8018, 0x800F, 0xE0A0, 0xF000, 0xF0FF, 0xFFFF].all
      (fun w => (decodeWord false (BitVec.ofNat 16 w)).instr? == none) = true := by decide

/-- DC3–DC5: strict and lenient. -/
theorem test_decode_lenient :
    decodeWord false 0x01E0 = .unknown .machineCall ∧ decodeWord true 0x01E0 = .ok .cls ∧
    decodeWord false 0x5121 = .unknown .skipEqualNibble ∧
    decodeWord true 0x5121 = .ok (.seReg 1 2) ∧
    decodeWord false 0x9125 = .unknown .skipNotEqualNibble ∧
    decodeWord true 0x9125 = .ok (.sneReg 1 2) := by decide

theorem test_table_words :
    decodeTableWord 16 0xD12A = some (.drw 1 2 0xA) ∧ decodeTableWord 16 0x0000 = none := by decide

/-- The map's mnemonics are 34 different names, its patterns 34 different words. -/
theorem test_opcode_map : opcodeMap.Nodup ∧ (opcodeMap.map OpcodeRow.mnemonic).Nodup := by decide

/-! ## One step -/

/-- What the host reports in these tests: key 5 down, keys 0xE and 0xF released. -/
def report : Report := ⟨0x0020, 0xC000, false⟩

/-- Reset, in a running batch, with one answer of each kind queued. -/
def start : State :=
  { State.reset with inTick := true, host := ⟨[⟨true, report⟩], [report], [true], [0xA7], 0⟩ }

/-- The same with `MEM_ADDR_POLICY = Fault`. -/
def strictStart : State := { start with cfg := { start.cfg with addrPolicy := .fault } }

/-- The next state, or `start` where there is none. -/
def result : Host.Outcome State Fault Refusal → State
  | .next t => t
  | _       => start

/-- One step that runs the word `w`. -/
def run (w : Nat) (s : State) : State := result (step (s.withFetchWord 16 w))

/-- Memory with one byte set. -/
def withByte (s : State) (a : Nat) (b : Byte) : State := s.poke a b

theorem test_reset_runs_first :
    step (State.reset.withFetchWord 16 0x6005) =
      .next { State.reset with
        inTick := true, mem := [(0x200, 0x60), (0x201, 0x05)], v := State.reset.v.set 0 5,
        pc := 0x202, ins := ⟨0x200, 0x6005⟩, slot := 1 } := by rfl

/-- From reset a step begins the first tick; no program byte is fetched yet (R130). -/
theorem test_reset_begins_tick :
    step State.reset = .next { State.reset with inTick := true } := by rfl

/-! ### Control transfer (CF1–CF16, W5) -/

theorem test_jp : (run 0x1234 start).pc = 0x234 := by decide
theorem test_call : (run 0x2300 { start with pc := 0x202 }).stack = [0x204] ∧
    (run 0x2300 { start with pc := 0x202 }).pc = 0x300 := by decide
theorem test_call_overflow :
    (run 0x2300 { start with stack := List.replicate 16 0 }).fault =
      ⟨.stackOverflow, 0x200, 0x2300, .noInfo⟩ ∧
    (run 0x2300 { start with stack := List.replicate 16 0 }).pc = 0x202 := by decide
theorem test_ret : (run 0x00EE { start with stack := [0x111, 0x204], pc := 0x300 }).pc = 0x204 ∧
    (run 0x00EE { start with stack := [0x111, 0x204], pc := 0x300 }).stack = [0x111] := by decide
theorem test_ret_underflow :
    (run 0x00EE start).fault = ⟨.stackUnderflow, 0x200, 0x00EE, .noInfo⟩ ∧
    (run 0x00EE start).pc = 0x202 := by decide
theorem test_seImm : (run 0x3412 (start.setReg 4 0x12)).pc = 0x204 ∧
    (run 0x3413 (start.setReg 4 0x12)).pc = 0x202 := by decide
theorem test_sneImm : (run 0x4413 (start.setReg 4 0x12)).pc = 0x204 ∧
    (run 0x4412 (start.setReg 4 0x12)).pc = 0x202 := by decide
theorem test_seReg : (run 0x5120 ((start.setReg 1 7).setReg 2 7)).pc = 0x204 ∧
    (run 0x5120 ((start.setReg 1 7).setReg 2 8)).pc = 0x202 := by decide
theorem test_sneReg : (run 0x9120 ((start.setReg 1 7).setReg 2 8)).pc = 0x204 ∧
    (run 0x9110 (start.setReg 1 7)).pc = 0x202 := by decide
theorem test_jpV0 : (run 0xBFFF (start.setReg 0 0xFF)).pc = 0x10FE := by decide

/-! ### ALU (the tables of Part 2) -/

theorem test_ldImm : (run 0x6AFF start).reg 0xA = 0xFF := by decide
theorem test_addImm : (run 0x7A01 ((start.setReg 0xA 0xFF).setReg VF 0x33)).reg 0xA = 0 ∧
    (run 0x7A01 ((start.setReg 0xA 0xFF).setReg VF 0x33)).reg VF = 0x33 := by decide
theorem test_ldReg : (run 0x8120 ((start.setReg 2 0x33).setReg VF 0x55)).reg 1 = 0x33 ∧
    (run 0x8120 ((start.setReg 2 0x33).setReg VF 0x55)).reg VF = 0x55 := by decide
theorem test_orReg : (run 0x81F1 ((start.setReg 1 0x10).setReg VF 0xF5)).reg 1 = 0xF5 ∧
    (run 0x81F1 ((start.setReg 1 0x10).setReg VF 0xF5)).reg VF = 0 := by decide
theorem test_andReg : (run 0x8122 ((start.setReg 1 0x3C).setReg 2 0x0F)).reg 1 = 0x0C := by decide
theorem test_xorReg : (run 0x8123 ((start.setReg 1 0xFF).setReg 2 0x0F)).reg 1 = 0xF0 := by decide
theorem test_addReg : (run 0x8124 ((start.setReg 1 0xF0).setReg 2 0x20)).reg 1 = 0x10 ∧
    (run 0x8124 ((start.setReg 1 0xF0).setReg 2 0x20)).reg VF = 1 := by decide
theorem test_addReg_flag_last : (run 0x8F14 ((start.setReg VF 0xFF).setReg 1 1)).reg VF = 1 := by decide
theorem test_subReg : (run 0x8125 ((start.setReg 1 0x10).setReg 2 0x20)).reg 1 = 0xF0 ∧
    (run 0x8125 ((start.setReg 1 0x10).setReg 2 0x20)).reg VF = 0 := by decide
theorem test_subReg_equal : (run 0x8125 ((start.setReg 1 5).setReg 2 5)).reg VF = 1 := by decide
theorem test_subnReg : (run 0x81F7 ((start.setReg 1 0x10).setReg VF 0xF5)).reg 1 = 0xE5 ∧
    (run 0x81F7 ((start.setReg 1 0x10).setReg VF 0xF5)).reg VF = 1 := by decide
theorem test_shrReg : (run 0x8126 ((start.setReg 1 0x44).setReg 2 0x81)).reg 1 = 0x40 ∧
    (run 0x8126 ((start.setReg 1 0x44).setReg 2 0x81)).reg VF = 1 := by decide
theorem test_shlReg : (run 0x812E ((start.setReg 1 0x44).setReg 2 0x81)).reg 1 = 0x02 ∧
    (run 0x812E ((start.setReg 1 0x44).setReg 2 0x81)).reg VF = 1 := by decide
theorem test_rnd : (run 0xC30F start).reg 3 = 0x07 ∧ (run 0xC30F start).host.draws = [] := by decide

/-! ### Display (W3, W4, DR1–DR11) -/

theorem test_cls :
    (run 0x00E0 { start with fb := start.fb.set 31 1 }).fb = blankFrame ∧
    (run 0x00E0 start).batchEnd = true := by decide
theorem test_drw_clips : (run 0xD011 ((withByte start 0x300 0xFF).setI 0x300 |>.setReg 0 60)).fb[0] = 0xF ∧
    (run 0xD011 ((withByte start 0x300 0xFF).setI 0x300 |>.setReg 0 60)).reg VF = 0 := by decide
theorem test_drw_collides :
    (run 0xD011 { (withByte start 0x300 0xC0).setI 0x300 with
      fb := start.fb.set 0 0x8000000000000000 }).fb[0] = 0x4000000000000000 ∧
    (run 0xD011 { (withByte start 0x300 0xC0).setI 0x300 with
      fb := start.fb.set 0 0x8000000000000000 }).reg VF = 1 := by decide

/-! ### Keys and timers (K1–K12, T2) -/

theorem test_skp : (run 0xE29E { start.setReg 2 0x15 with kd := 0x0020 }).pc = 0x204 := by decide
theorem test_sknp : (run 0xE2A1 (start.setReg 2 0x05)).pc = 0x204 ∧
    (run 0xE2A1 { start.setReg 2 0x05 with kd := 0x0020 }).pc = 0x202 := by decide
theorem test_ldVxDt : (run 0xF307 { start with dt := 0x2A }).reg 3 = 0x2A := by decide
theorem test_ldVxK : (run 0xF50A { start with kr := 0xC000 }).reg 5 = 0x0E := by decide
theorem test_ldVxK_waits : (run 0xF50A { start with kr := 0x8000 }).pc = 0x200 := by decide
theorem test_ldDtVx : (run 0xF315 (start.setReg 3 0x3C)).dt = 0x3C := by decide
theorem test_ldStVx : (run 0xF318 (start.setReg 3 5)).st = 5 ∧ (run 0xF318 (start.setReg 3 5)).tone = true ∧
    (run 0xF318 { start with st := 5 }).tone = false := by decide
theorem test_ldStVx_audio_fails :
    (run 0xF318 { start.setReg 3 5 with host := { start.host with audios := [false] } }).fault =
      ⟨.hostIo, 0x200, 0xF318, .audio⟩ := by decide
theorem test_tick_end :
    (result (step { start with batchEnd := true, dt := 0xFF, st := 1 })).dt = 0xFE ∧
    (result (step { start with batchEnd := true, dt := 0xFF, st := 1 })).st = 0 ∧
    (result (step { start with batchEnd := true, dt := 0xFF, st := 1 })).kd = 0x0020 := by decide

/-! ### Index and memory (X1–X13, E4, E5) -/

theorem test_ldI : (run 0xA2F0 start).i = 0x02F0 := by decide
theorem test_addIVx : (run 0xF11E ((start.setI 0xFFFF).setReg 1 1)).i = 0 ∧
    (run 0xF11E ((start.setI 0x0FFF).setReg 1 1)).reg VF = 0 := by decide
theorem test_ldFVx : (run 0xF229 (start.setReg 2 0x1A)).i = 0x082 := by decide
theorem test_ldBVx : (run 0xF033 ((start.setI 0xFFF).setReg 0 123)).peek 0xFFF = 1 ∧
    (run 0xF033 ((start.setI 0xFFF).setReg 0 123)).peek 0 = 2 ∧
    (run 0xF033 ((start.setI 0xFFF).setReg 0 123)).peek 1 = 3 := by decide
theorem test_ldBVx_bounds :
    (run 0xF033 ((strictStart.setI 0xFFE).setReg 0 254)).peek 0xFFF = 5 ∧
    (run 0xF033 ((strictStart.setI 0xFFE).setReg 0 254)).fault =
      ⟨.memBounds, 0x200, 0xF033, .address 0x1000⟩ := by decide
theorem test_ldMemVx : (run 0xF155 (((start.setI 0x308).setReg 0 2).setReg 1 5)).mem =
      [(0x200, 0xF1), (0x201, 0x55), (0x308, 2), (0x309, 5)] ∧
    (run 0xF155 (start.setI 0x308)).i = 0x30A := by decide
theorem test_ldMemVx_bounds :
    (run 0xF155 ((strictStart.setI 0xFFF).setReg 0 7)).peek 0xFFF = 7 ∧
    (run 0xF155 ((strictStart.setI 0xFFF).setReg 0 7)).i = 0x1000 := by decide
theorem test_ldVxMem : (run 0xF165 ((withByte (withByte start 0x300 2) 0x301 5).setI 0x300)).reg 1 = 5 ∧
    (run 0xF165 ((withByte (withByte start 0x300 2) 0x301 5).setI 0x300)).i = 0x302 := by decide

/-! ### The cycle (F3, E3) and the CORE stopped -/

theorem test_fetch_wraps : (run 0x6011 { start with pc := 0x0FFF }).reg 0 = 0x11 ∧
    (run 0x6011 { start with pc := 0x0FFF }).pc = 0x1001 := by decide
theorem test_fetch_bounds :
    (result (step { strictStart with pc := 0x0FFF })).fault =
      ⟨.memBounds, 0x0FFF, 0, .address 0x1000⟩ ∧
    (result (step { strictStart with pc := 0x0FFF })).pc = 0x0FFF := by decide
theorem test_unknown : (run 0x8018 start).fault = ⟨.unknownOpcode, 0x200, 0x8018, .noInfo⟩ ∧
    (run 0x8018 start).pc = 0x202 := by decide
theorem test_halted_stops : step { start with halted := true } = .fault .coreHalted := rfl
theorem test_load_too_long :
    loadProgram Config.default (List.replicate 3585 0) = .refused (.programTooLong 3585) := by
  rw [loadProgram, if_neg (by rw [List.length_replicate]; decide), List.length_replicate]

/-! ## Witnesses: the hypotheses of each statement, met together -/

/-! ### Encoding -/

theorem witness_StrictDecodeIgnoresNoBit : decodeWord false 0x1234 = .ok (.jp 0x234) := by decide

theorem witness_DecodeFollowsTheOpcodeMap :
    rowOf (.shlReg 0 0) ∈ opcodeMap ∧ (rowOf (.shlReg 0 0)).selects 0x8FFE = true ∧
    (rowOf (.sneReg 0 0)).selects 0x8FFE = false := by decide

theorem witness_IllegalWordsByClass :
    decodeWord false 0x00E1 = .unknown .machineCall ∧
    decodeWord false 0x5001 = .unknown .skipEqualNibble ∧
    decodeWord false 0x800D = .unknown .aluSubop ∧
    decodeWord false 0x900F = .unknown .skipNotEqualNibble ∧
    decodeWord false 0xE09F = .unknown .keySubop ∧
    decodeWord false 0xF066 = .unknown .miscSubop := by decide

theorem witness_LenientDecodeAddsOnlyItsWords :
    (1 : BitVec 4) ≠ 0 ∧ fieldOp 0x00E1 ∉ [0x5#4, 0x9#4] ∧
    ¬ (fieldOp 0x00E1 = 0x0 ∧ fieldNN 0x00E1 ∈ [0xE0#8, 0xEE#8]) ∧
    fieldOp 0xFFFF ∉ [0x5#4, 0x9#4] := by decide

theorem witness_AssemblerAcceptsExactlyLinesInRange :
    (16 ≤ RawOperands.x { x := 16 }) ∧ (16 ≤ RawOperands.y { y := 16 }) ∧
    (0x10 ≤ RawOperands.n { n := 0x10 }) ∧ (0x100 ≤ RawOperands.nn { nn := 0x100 }) ∧
    (0x1000 ≤ RawOperands.nnn { nnn := 0x1000 }) := by decide

/-! ### The cycle and the step -/

theorem start_running : start.running := ⟨rfl, rfl⟩

theorem start_inBatch : start.inBatch := ⟨⟨rfl, rfl⟩, rfl, rfl⟩

theorem strictStart_inBatch : strictStart.inBatch := ⟨⟨rfl, rfl⟩, rfl, rfl⟩

/-- The state a table word is about to run in. -/
def about (w : Nat) : State := start.withFetchWord 16 w

theorem witness_StepRunsTheDecodedInstruction :
    (about 0x8124).inBatch ∧ (about 0x8124).memRead 0x200 = some 0x81 ∧
    (about 0x8124).memRead 0x201 = some 0x24 ∧
    decodeWord (about 0x8124).cfg.lenientDecode (0x81#8 ++ 0x24#8) = .ok (.addReg 1 2) :=
  ⟨⟨⟨rfl, rfl⟩, rfl, rfl⟩, by decide, by decide, by decide⟩

theorem witness_UnknownWordHalts :
    (about 0x8018).inBatch ∧ (about 0x8018).memRead 0x200 = some 0x80 ∧
    (about 0x8018).memRead 0x201 = some 0x18 ∧
    decodeWord (about 0x8018).cfg.lenientDecode (0x80#8 ++ 0x18#8) = .unknown .aluSubop :=
  ⟨⟨⟨rfl, rfl⟩, rfl, rfl⟩, by decide, by decide, by decide⟩

theorem witness_FetchReducesItsAddresses_wrap : start.inBatch ∧ start.cfg.addrPolicy = .wrap :=
  ⟨start_inBatch, rfl⟩

theorem witness_FetchReducesItsAddresses_fault (a : Word) :
    State.inBatch { strictStart with pc := a } ∧
    ({ strictStart with pc := a } : State).cfg.addrPolicy = .fault :=
  ⟨⟨⟨rfl, rfl⟩, rfl, rfl⟩, rfl⟩

theorem witness_FetchReducesItsAddresses_at :
    0xFFF ≤ (0xFFF : Word).toNat ∧ 0xFFF ≤ (0x1000 : Word).toNat ∧
    0xFFF ≤ (0xFFFF : Word).toNat := by decide

theorem witness_StoppedCoreTakesNoStep :
    ({ start with halted := true } : State).halted = true ∧
    ({ start with ended := true } : State).halted = false ∧
    ({ start with ended := true } : State).ended = true := by decide

theorem witness_RunningCoreAlwaysSteps : State.reset.running ∧ start.running :=
  ⟨⟨rfl, rfl⟩, start_running⟩

/-- Between ticks, with the sound about to stop and a failing audio answer queued. -/
def idle (p : TimerPhase) (audio : Bool) : State :=
  { State.reset with
    cfg := { Config.default with timerPhase := p }, dt := 9, st := 1,
    host := ⟨[], [report], [audio], [], 0⟩ }

theorem witness_TickBeginsABatch :
    ∀ p a, (idle p a).running ∧ (idle p a).inTick = false ∧ (idle p a).cfg.timerPhase = p ∧
      (idle p a).st = 1 ∧ (idle p a).audioAnswer = a := fun _ _ => ⟨⟨rfl, rfl⟩, rfl, rfl, rfl, rfl⟩

/-- The same in a tick whose batch is over. -/
def tickOver (p : TimerPhase) (audio : Bool) : State :=
  { idle p audio with inTick := true, batchEnd := true }

theorem witness_TickEndCountsDownPollsAndMayEndTheRun :
    ∀ p, (tickOver p true).running ∧ (tickOver p true).inTick = true ∧
      (tickOver p true).batchOpen = false ∧
      ((tickOver p true).cfg.timerPhase = .afterBatch → (tickOver p true).st = 1 →
        (tickOver p true).audioAnswer = true) ∧
      (tickOver p true).cfg.timerPhase = p ∧ (tickOver p true).host.polls = [report] :=
  fun _ => ⟨⟨rfl, rfl⟩, rfl, rfl, fun _ _ => rfl, rfl, rfl⟩

theorem witness_AudioFailureAtTheTimerStepHalts_after :
    (tickOver .afterBatch false).running ∧ (tickOver .afterBatch false).st = 1 ∧
    (tickOver .afterBatch false).audioAnswer = false ∧
    (tickOver .afterBatch false).cfg.timerPhase = .afterBatch ∧
    (tickOver .afterBatch false).inTick = true ∧ (tickOver .afterBatch false).batchOpen = false :=
  ⟨⟨rfl, rfl⟩, rfl, rfl, rfl, rfl, rfl⟩

theorem witness_AudioFailureAtTheTimerStepHalts_before :
    (idle .beforeBatch false).running ∧ (idle .beforeBatch false).st = 1 ∧
    (idle .beforeBatch false).audioAnswer = false ∧
    (idle .beforeBatch false).cfg.timerPhase = .beforeBatch ∧
    (idle .beforeBatch false).inTick = false := ⟨⟨rfl, rfl⟩, rfl, rfl, rfl, rfl⟩

theorem witness_OnlyClearAndDrawEndABatch :
    (∃ t, exec (.drw 0 0 1) start = .next t ∧ t.batchEnd ≠ start.batchEnd ∧ t.halted = false) ∧
    (tickOver .afterBatch true).running ∧ (tickOver .afterBatch true).inTick = true ∧
    (tickOver .afterBatch true).batchEnd = true ∧
    ∃ t, step (tickOver .afterBatch true) = .next t :=
  ⟨⟨_, rfl, by decide, by decide⟩, ⟨rfl, rfl⟩, rfl, rfl, _, rfl⟩

theorem witness_BatchHasAtMostIpfCycles : start.inBatch ∧ State.inBatch { start with slot := 99 } :=
  ⟨start_inBatch, ⟨rfl, rfl⟩, rfl, rfl⟩

theorem witness_EveryTickCompletes :
    start.running ∧ start.inTick = true ∧ State.running { start with slot := 100 } :=
  ⟨start_running, rfl, rfl, rfl⟩

theorem witness_RunEndsByQuitOrFault_fault :
    (about 0x0000).running ∧ ∃ t, step (about 0x0000) = .next t ∧ ¬ t.running :=
  ⟨⟨rfl, rfl⟩, _, rfl, fun h => absurd h.1 (by decide)⟩

theorem witness_RunEndsByQuitOrFault_quit :
    State.running { tickOver .afterBatch true with quit := true } ∧
    ∃ t, step { tickOver .afterBatch true with quit := true } = .next t ∧ ¬ t.running :=
  ⟨⟨rfl, rfl⟩, _, rfl, fun h => absurd h.2 (by decide)⟩

/-! ### Invariants and rules of the whole machine -/

theorem start_inv : start.Inv where
  memCanonical  := reset_mem_wf Config.default
  stackBounded  := by decide
  slotBounded   := by decide
  faultRecorded := by decide
  endedByQuit   := by decide
  frameShown    := fun _ => rfl

theorem witness_StepKeepsTheInvariant : start.Inv ∧ ∃ t, step start = .next t :=
  ⟨start_inv, _, rfl⟩

theorem witness_LoadedResetMeetsTheInvariant :
    ∃ s, loadProgram Config.default [0x12, 0x00] = .next s := ⟨_, rfl⟩

theorem witness_QuitIsNeverCleared :
    ({ start with quit := true } : State).quit = true ∧
    ∃ t, step { start with quit := true } = .next t := ⟨rfl, _, rfl⟩

theorem witness_OnlyBcdAndDumpWriteMemory :
    ∃ t, exec (.drw 1 2 3) start = .next t ∧ (∀ x, Instr.drw 1 2 3 ≠ .ldBVx x) ∧
      ∀ x, Instr.drw 1 2 3 ≠ .ldMemVx x := ⟨_, rfl, by simp, by simp⟩

theorem witness_OnlyCallAndReturnTouchTheStack :
    ∃ t, exec (.jp 0x300) start = .next t ∧ Instr.jp 0x300 ≠ .ret ∧
      ∀ nnn, Instr.jp 0x300 ≠ .call nnn := ⟨_, rfl, by simp, by simp⟩

theorem witness_OnlyClearAndDrawTouchTheFrame :
    ∃ t, exec (.ldMemVx 15) start = .next t ∧ Instr.ldMemVx 15 ≠ .cls ∧
      ∀ x y n, Instr.ldMemVx 15 ≠ .drw x y n := ⟨_, rfl, by simp, by simp⟩

theorem witness_OnlyFiveInstructionsWriteTheIndex :
    ∃ t, exec (.ldFVx 0) start = .next t ∧ t.i ≠ start.i := ⟨_, rfl, by decide⟩

theorem witness_OnlyListedInstructionsWriteTheFlag :
    ∃ t, exec (.ldVxMem VF) (withByte start 0xF 1) = .next t ∧
      t.reg VF ≠ (withByte start 0xF 1).reg VF := ⟨_, rfl, by decide⟩

theorem witness_TimersAndKeysAreConstantInABatch :
    ∃ t, exec (.ldVxDt 0) start = .next t ∧ (∀ x, Instr.ldVxDt 0 ≠ .ldDtVx x) ∧
      (∀ x, Instr.ldVxDt 0 ≠ .ldStVx x) ∧ Instr.ldVxDt 0 ≠ .cls ∧
      ∀ x y n, Instr.ldVxDt 0 ≠ .drw x y n := ⟨_, rfl, by simp, by simp, by simp, by simp⟩

/-- The host refuses the next frame and the next tone. -/
def failing : State := { start with host := ⟨[⟨false, report⟩], [], [false], [], 0⟩ }

theorem witness_InstructionsHaltOnlyAsListed :
    (∃ t, start.halted = false ∧ exec .ret start = .next t ∧ t.halted = true) ∧
    (∃ t, exec (.call 0x300) { start with stack := List.replicate 16 0 } = .next t ∧
      t.halted = true) ∧
    (∃ t, failing.halted = false ∧ exec .cls failing = .next t ∧ t.halted = true) ∧
    (∃ t, exec (.ldStVx 0) { failing with st := 1 } = .next t ∧ t.halted = true) ∧
    ∃ t, exec (.ldVxMem 1) (strictStart.setI 0xFFF) = .next t ∧ t.halted = true :=
  ⟨⟨_, rfl, rfl, by decide⟩, ⟨_, rfl, by decide⟩, ⟨_, rfl, rfl, by decide⟩, ⟨_, rfl, by decide⟩,
    ⟨_, rfl, by decide⟩⟩

theorem witness_FramesSentAreNeverReadBack : ∃ t, step (about 0xD011) = .next t := ⟨_, rfl⟩

/-! ### Reset and memory -/

theorem witness_ResetLoadsProgramAndFont :
    3584 < (List.replicate 3585 (0 : Byte)).length ∧
    (List.replicate 3584 (0 : Byte)).length ≤ 3584 := by
  rw [List.length_replicate, List.length_replicate]; decide

theorem witness_ReadAfterWriteThroughTheArbiter :
    (∃ t, start.memWrite 0xFFFF 7 = some t) ∧ (∃ t, strictStart.memWrite 0xFFF 7 = some t) ∧
    reduceAddr .wrap 0x1000 ≠ reduceAddr .wrap 0xFFFF := ⟨⟨_, rfl⟩, ⟨_, rfl⟩, by decide⟩

theorem witness_StoredBytesAreFetchedNext :
    (start.setI 0x200).cfg.addrPolicy = .wrap ∧ (start.setI 0x200).i = (start.setI 0x200).pc := by
  decide

/-! ### ALU and control transfer -/

theorem witness_AluDestinations : (0 : Reg) ≠ VF ∧ (14 : Reg) ≠ VF := by decide

theorem witness_RandomMasksTheHostsByte : start.host.draws = 0xA7 :: [] := rfl

theorem witness_ReturnPopsOrHalts :
    ({ start with stack := [1, 2] } : State).stack = [1] ++ [2] ∧ start.stack = [] := by decide

theorem witness_CallPushesTheReturnAddressOrHalts :
    State.sp { start with stack := List.replicate 15 0 } < start.cfg.stackDepth ∧
    start.cfg.stackDepth ≤ State.sp { start with stack := List.replicate 16 0 } := by decide

theorem witness_ReturnUndoesCall : start.sp < start.cfg.stackDepth := by decide

/-! ### Display -/

theorem witness_ClearScreenClearsAndFlushes :
    start.flushAnswer.ok = true ∧ failing.flushAnswer.ok = false := by decide

theorem witness_DrawXorsTheClippedSprite :
    (start.setI 0xFFF).spriteReadable 0 15 ∧ start.flushAnswer.ok = true ∧
    failing.spriteReadable 0 15 ∧ failing.flushAnswer.ok = false ∧
    (strictStart.setI 0xFF1).spriteReadable 0 15 :=
  ⟨by unfold State.spriteReadable; decide, rfl, by unfold State.spriteReadable; decide, rfl,
    by unfold State.spriteReadable; decide⟩

theorem witness_DrawStopsAtAnUnreadableRow :
    1 < (2 : BitVec 4).toNat ∧ originRow (strictStart.reg 0) + 1 < 32 ∧
    (strictStart.setI 0xFFF).memRead (0xFFF + 1) = none ∧
    ∀ j < 1, (strictStart.setI 0xFFF).memRead (0xFFF + j) ≠ none := by decide

/-- Two flush answers queued, so that a sprite can be drawn twice. -/
def drawer : State :=
  { start with host := ⟨[⟨true, report⟩, ⟨true, report⟩], [], [], [], 0⟩, i := 0x050 }

theorem witness_DrawingTwiceRestoresTheFrame :
    drawer.spriteReadable 1 5 ∧ (0 : Reg) ≠ VF ∧ (1 : Reg) ≠ VF ∧ drawer.flushAnswer.ok = true ∧
    ∃ t u, exec (.drw 0 1 5) drawer = .next t ∧ t.flushAnswer.ok = true ∧
      exec (.drw 0 1 5) t = .next u ∧ t.reg VF = 0 :=
  ⟨by unfold State.spriteReadable; decide, by decide, by decide, rfl, _, _, rfl, by decide, rfl,
    by decide⟩

/-! ### Keys and timers -/

theorem witness_SoundTimerDrivesTheTone :
    (start.reg 0 = 0 ↔ start.st = 0) ∧
    (¬ ((start.setReg 0 5).reg 0 = 0 ↔ start.st = 0) ∧ start.audioAnswer = true) ∧
    (¬ ((failing.setReg 0 5).reg 0 = 0 ↔ failing.st = 0) ∧ failing.audioAnswer = false) := by decide

theorem witness_WaitForKeyTakesTheLowestOrRewinds :
    ((14 : Key).val ≤ start.cfg.waitKeyMax ∧ (0xC000#16).getLsbD (14 : Key).val = true ∧
      ∀ j : Key, j < 14 → (0xC000#16).getLsbD j.val = false) ∧
    ∀ k : Key, k.val ≤ start.cfg.waitKeyMax → (0x8000#16).getLsbD k.val = false := by decide

theorem witness_WaitingCostsOneSlot :
    (about 0xF50A).inBatch ∧ (about 0xF50A).memRead 0x200 = some (0xF#4 ++ BitVec.ofNat 4 (5 : Reg).val) ∧
    (about 0xF50A).memRead 0x201 = some 0x0A ∧
    ∀ k : Key, k.val ≤ (about 0xF50A).cfg.waitKeyMax → (about 0xF50A).kr.getLsbD k.val = false :=
  ⟨⟨⟨rfl, rfl⟩, rfl, rfl⟩, by decide, by decide, by decide⟩

/-! ### Index register and memory -/

theorem witness_BcdStoresThreeDigits :
    (∀ k < 3, (start.setI 0xFFF).memRead (0xFFF + k) ≠ none) ∧
    ((strictStart.setI 0xFFE).memRead (0xFFE + 2) = none ∧
      ∀ j < 2, (strictStart.setI 0xFFE).memRead (0xFFE + j) ≠ none) ∧
    (strictStart.setI 0x1000).memRead (0x1000 + 0) = none := by decide

theorem witness_RegisterDumpAndLoad :
    (∀ k : Reg, k ≤ 15 → (start.setI 0xFFFF).memRead ((start.setI 0xFFFF).regAddr k) ≠ none) ∧
    (∀ k : Reg, k ≤ 15 → (strictStart.setI 0xFF0).memRead ((strictStart.setI 0xFF0).regAddr k) ≠ none) ∧
    ((strictStart.setI 0xFF1).memRead ((strictStart.setI 0xFF1).regAddr 15) = none ∧
      ∀ j : Reg, j < 15 → (strictStart.setI 0xFF1).memRead ((strictStart.setI 0xFF1).regAddr j) ≠ none) ∧
    (strictStart.setI 0x1000).memRead ((strictStart.setI 0x1000).regAddr 0) = none := by decide

theorem witness_LoadAfterDumpRestoresRegisters :
    start.cfg.addrPolicy = .wrap ∧
    ∃ t u, exec (.ldMemVx 15) start = .next t ∧ (t.setI start.i).mem = t.mem ∧
      (t.setI start.i).cfg = start.cfg ∧ (t.setI start.i).i = start.i ∧
      exec (.ldVxMem 15) (t.setI start.i) = .next u := ⟨rfl, _, _, rfl, rfl, rfl, rfl, rfl⟩

end Sys2Proof.Tests
end

section
/-! PROOFS. The statements about the machine's state: the invariant and what each step keeps of it,
which instructions may write which field, reset and load, CALL with RET, the sound timer, and the
8XYn instructions that write a result and a flag. -/

namespace Sys2Proof.Machine

/-! ## The invariant -/

section
variable {s t : State}

/-- The invariant speaks of these fields only: a state that agrees in them has it too. -/
theorem State.Inv.of_eq (hs : s.Inv)
    (e : t = { t with cfg := s.cfg, mem := s.mem, stack := s.stack, fb := s.fb, quit := s.quit,
                      slot := s.slot, halted := s.halted, fault := s.fault, ended := s.ended,
                      inTick := s.inTick, out := s.out }) : t.Inv := by
  rw [e]
  exact ⟨hs.memCanonical, hs.stackBounded, hs.slotBounded, hs.faultRecorded, hs.endedByQuit,
    hs.frameShown⟩

theorem State.Inv.withMem (hs : s.Inv) {m : Memory}
    (hm : Memory.wf s.cfg s.mem → Memory.wf s.cfg m) :
    State.Inv { s with mem := m } :=
  { hs with memCanonical := hm hs.memCanonical }

theorem State.Inv.withStack (hs : s.Inv) {st : List Word} (h : st.length ≤ s.cfg.stackDepth) :
    State.Inv { s with stack := st } :=
  { hs with stackBounded := h }

/-- A fault record may stand over a framebuffer that has not been sent (R220). -/
theorem State.Inv.raise (hs : s.Inv) {k : FaultKind} (hk : k ≠ .noFault) (f : FaultInfo)
    (a w : Word) (e : t = { t with cfg := s.cfg, mem := s.mem, stack := s.stack, quit := s.quit,
                                   slot := s.slot, ended := s.ended, inTick := s.inTick }) :
    (t.raise k f a w).Inv := by
  rw [e]
  exact { hs with
    faultRecorded := iff_of_true rfl hk
    frameShown := fun h => Bool.noConfusion h }

/-- A Flush that succeeds shows whatever framebuffer was drawn (R220, R331). -/
theorem State.Inv.flush (hs : s.Inv) (f : Frame) (v : Vector Byte 16) (r : Report) :
    (({ s with fb := f, v := v }.sendFrame.takeFlush.accept r).endBatch).Inv :=
  { hs with
    endedByQuit := fun h => (hs.endedByQuit h).imp_left fun hq => by simp [hq]
    frameShown := fun _ => rfl }

theorem State.Inv.countSlot (hs : s.Inv) (h : s.countSlot.slot ≤ s.cfg.ipf) : s.countSlot.Inv :=
  { hs with slotBounded := h }

theorem State.Inv.pollCloseTick (hs : s.Inv) : s.poll.closeTick.Inv :=
  { hs with endedByQuit := fun h => ⟨h, rfl⟩ }

end

/-- Every instruction keeps the invariant, whichever of its outcomes it has. -/
theorem exec_keeps_inv {i : Instr} {s t : State} (h : exec i s = .next t) (hs : s.Inv) : t.Inv := by
  cases i
  case cls =>
    rcases exec_cls_cases s with ⟨_, e⟩ | ⟨_, e⟩ <;> cases e.symm.trans h
    · exact hs.flush blankFrame s.v _
    · exact hs.raise (by decide) _ _ _ rfl
  case drw x y n =>
    obtain ⟨f, v, _, ⟨_, e⟩ | ⟨_, e⟩ | ⟨_, _, e⟩⟩ := exec_drw_cases x y n s <;>
      cases e.symm.trans h
    · exact hs.flush f v _
    · exact hs.raise (by decide) _ _ _ rfl
    · exact hs.raise (by decide) _ _ _ rfl
  case ret =>
    rcases exec_ret_cases s with ⟨st, w, hst, e⟩ | ⟨_, e⟩ <;> cases e.symm.trans h
    · have hle : st.length ≤ s.cfg.stackDepth := by
        have := hs.stackBounded
        rw [hst, List.length_append] at this
        omega
      exact (hs.withStack hle).of_eq rfl
    · exact hs.raise (by decide) _ _ _ rfl
  case call nnn =>
    rcases exec_call_cases nnn s with ⟨hlt, e⟩ | ⟨_, e⟩ <;> cases e.symm.trans h
    · have hle : (s.stack ++ [s.pc]).length ≤ s.cfg.stackDepth := by
        rw [List.length_append]
        exact hlt
      exact (hs.withStack hle).of_eq rfl
    · exact hs.raise (by decide) _ _ _ rfl
  case ldVxK x =>
    rcases exec_ldVxK_cases x s with ⟨_, _, e⟩ | ⟨_, e⟩ <;> cases e.symm.trans h <;>
      exact hs.of_eq rfl
  case ldStVx x =>
    rcases exec_ldStVx_cases x s with ⟨_, e⟩ | ⟨_, _, e⟩ | ⟨_, _, e⟩ <;> cases e.symm.trans h
    · exact hs.of_eq rfl
    · exact hs.of_eq rfl
    · exact hs.raise (by decide) _ _ _ rfl
  case ldBVx x =>
    obtain ⟨m, hm, e | ⟨_, _, e⟩⟩ := exec_ldBVx_cases x s <;> cases e.symm.trans h
    · exact hs.withMem hm
    · exact (hs.withMem hm).raise (by decide) _ _ _ rfl
  case ldMemVx x =>
    obtain ⟨m, w, hm, e | ⟨_, _, e⟩⟩ := exec_ldMemVx_cases x s <;> cases e.symm.trans h
    · exact (hs.withMem hm).of_eq rfl
    · exact (hs.withMem hm).raise (by decide) _ _ _ rfl
  case ldVxMem x =>
    obtain ⟨v, w, _, e | ⟨_, _, e⟩⟩ := exec_ldVxMem_cases x s <;> cases e.symm.trans h
    · exact hs.of_eq rfl
    · exact hs.raise (by decide) _ _ _ rfl
  case seImm | sneImm | seReg | sneReg | skp | sknp =>
    cases h
    rw [State.skipIf_eq]
    exact hs.of_eq rfl
  all_goals
    cases h
    exact hs.of_eq rfl

/-- A cycle of a batch that is open keeps the invariant; the slot it counts was still free. -/
theorem runSlot_keeps_inv {s t : State} (h : runSlot s = .next t) (ho : s.batchOpen = true)
    (hs : s.Inv) : t.Inv := by
  have hslot : t.slot ≤ t.cfg.ipf := by
    rw [runSlot_slot h, runSlot_cfg h]
    simp only [State.batchOpen, Bool.and_eq_true, decide_eq_true_eq] at ho
    exact ho.1
  obtain ⟨u, rfl, ⟨a, _, rfl⟩ | ⟨w, _, _, _, rfl⟩ | ⟨w, i, _, _, hi⟩⟩ := runSlot_cases h
  · exact (hs.raise (by decide) _ _ _ rfl).countSlot hslot
  · exact (hs.raise (t := s.advance w) (by decide) _ _ _ rfl).countSlot hslot
  · exact (exec_keeps_inv hi (hs.of_eq rfl)).countSlot hslot

theorem State.Inv.timerTick {s : State} (hs : s.Inv) : s.timerTick.state.Inv := by
  rcases s.timerTick_cases with ⟨_, e⟩ | ⟨_, _, e⟩ | ⟨_, _, e⟩ <;> rw [e]
  · exact hs.of_eq rfl
  · exact hs.of_eq rfl
  · exact hs.raise (by decide) _ _ _ rfl

/-- A tick begins only in a run that has not ended, with no slot counted yet (R130). -/
theorem State.Inv.beginTick {s : State} (hs : s.Inv) (hr : s.running) : s.beginTick.Inv := by
  have h0 : State.Inv { s with slot := 0, batchEnd := false, inTick := true } :=
    { hs with
      slotBounded := Nat.zero_le _
      endedByQuit := fun h => Bool.noConfusion (hr.2.symm.trans h) }
  rcases s.beginTick_cases with ⟨_, e⟩ | ⟨_, e⟩ <;> rw [e]
  · exact h0
  · exact h0.timerTick

theorem State.Inv.endTick {s : State} (hs : s.Inv) : s.endTick.Inv := by
  rcases s.endTick_cases with ⟨_, e⟩ | ⟨_, _, e⟩ | ⟨_, _, _, e⟩ | ⟨_, _, _, e⟩ <;> rw [e]
  · exact hs.pollCloseTick
  · exact (hs.of_eq rfl).pollCloseTick
  · exact (hs.of_eq rfl).pollCloseTick
  · exact hs.raise (by decide) _ _ _ rfl

/-- Settles O20, part by part of a frame tick. -/
theorem stepKeepsTheInvariant : Obligations.StepKeepsTheInvariant := by
  intro s t hs h
  obtain ⟨hr, ⟨_, rfl⟩ | ⟨_, _, rfl⟩ | ⟨_, ho, hc⟩⟩ := step_cases h
  · exact hs.beginTick hr
  · exact hs.endTick
  · exact runSlot_keeps_inv hc ho hs

end Sys2Proof.Machine

namespace Sys2Proof

/-! ## What an instruction may write -/

/-- The instructions that push or pop the call stack (R28). -/
def Instr.usesStack : Instr → Bool
  | .ret | .call _ => true
  | _ => false

/-- The instructions that change the framebuffer and send it (R220). -/
def Instr.sendsFrame : Instr → Bool
  | .cls | .drw _ _ _ => true
  | _ => false

/-- The instructions that write `I` (R26). -/
def Instr.writesIndex : Instr → Bool
  | .ldI _ | .addIVx _ | .ldFVx _ | .ldMemVx _ | .ldVxMem _ => true
  | _ => false

/-- The instructions that write memory (R61). -/
def Instr.writesMemory : Instr → Bool
  | .ldBVx _ | .ldMemVx _ => true
  | _ => false

/-- The registers an instruction may write, its flag register included (R24, R181–R195, R284). -/
def Instr.destinations : Instr → List Reg
  | .ldImm x _ | .addImm x _ | .rnd x _ | .ldReg x _ | .ldVxDt x | .ldVxK x => [x]
  | .orReg x _ | .andReg x _ | .xorReg x _ | .addReg x _ | .subReg x _ | .subnReg x _
  | .shrReg x _ | .shlReg x _ => [x, VF]
  | .drw _ _ _ => [VF]
  | .ldVxMem x => Machine.regsUpTo x
  | _ => []

/-- Every instruction but CLS and DRW leaves the frame alone. -/
theorem Instr.sendsFrame_eq_false {i : Instr} (hcls : i ≠ .cls) (hdrw : ∀ x y n, i ≠ .drw x y n) :
    i.sendsFrame = false := by
  cases i
  case cls => exact absurd rfl hcls
  case drw x y n => exact absurd rfl (hdrw x y n)
  all_goals rfl

end Sys2Proof

namespace Sys2Proof.Machine

/-- An instruction leaves alone memory, registers, `I`, stack and frame where they are not its to
write; the key sets, quit and the end of the batch go with the frame (R129, R331). -/
theorem exec_frame {i : Instr} {s t : State} (h : exec i s = .next t) :
    t = { t with
      mem := if i.writesMemory then t.mem else s.mem
      v := if i.destinations.isEmpty then s.v else t.v
      i := if i.writesIndex then t.i else s.i
      stack := if i.usesStack then t.stack else s.stack
      fb := if i.sendsFrame then t.fb else s.fb
      kd := if i.sendsFrame then t.kd else s.kd
      kr := if i.sendsFrame then t.kr else s.kr
      quit := if i.sendsFrame then t.quit else s.quit
      batchEnd := if i.sendsFrame then t.batchEnd else s.batchEnd
      out := if i.sendsFrame then t.out else s.out } := by
  cases i
  case cls => rcases exec_cls_cases s with ⟨_, e⟩ | ⟨_, e⟩ <;> cases e.symm.trans h <;> rfl
  case drw x y n =>
    obtain ⟨_, _, _, ⟨_, e⟩ | ⟨_, e⟩ | ⟨_, _, e⟩⟩ := exec_drw_cases x y n s <;>
      cases e.symm.trans h <;> rfl
  case ret => rcases exec_ret_cases s with ⟨_, _, _, e⟩ | ⟨_, e⟩ <;> cases e.symm.trans h <;> rfl
  case call nnn =>
    rcases exec_call_cases nnn s with ⟨_, e⟩ | ⟨_, e⟩ <;> cases e.symm.trans h <;> rfl
  case ldVxK x =>
    rcases exec_ldVxK_cases x s with ⟨_, _, e⟩ | ⟨_, e⟩ <;> cases e.symm.trans h <;> rfl
  case ldStVx x =>
    rcases exec_ldStVx_cases x s with ⟨_, e⟩ | ⟨_, _, e⟩ | ⟨_, _, e⟩ <;>
      cases e.symm.trans h <;> rfl
  case ldBVx x =>
    obtain ⟨_, _, e | ⟨_, _, e⟩⟩ := exec_ldBVx_cases x s <;> cases e.symm.trans h <;> rfl
  case ldMemVx x =>
    obtain ⟨_, _, _, e | ⟨_, _, e⟩⟩ := exec_ldMemVx_cases x s <;> cases e.symm.trans h <;> rfl
  case ldVxMem x =>
    obtain ⟨_, _, _, e | ⟨_, _, e⟩⟩ := exec_ldVxMem_cases x s <;> cases e.symm.trans h <;> rfl
  case seImm | sneImm | seReg | sneReg | skp | sknp => cases h; rw [State.skipIf_eq]; rfl
  all_goals cases h; rfl

section
variable {i : Instr} {s t : State}

theorem exec_index (h : exec i s = .next t) (hi : i.writesIndex = false) : t.i = s.i := by
  simpa [hi] using congrArg State.i (exec_frame h)

theorem exec_stack (h : exec i s = .next t) (hi : i.usesStack = false) : t.stack = s.stack := by
  simpa [hi] using congrArg State.stack (exec_frame h)

theorem exec_fb (h : exec i s = .next t) (hi : i.sendsFrame = false) : t.fb = s.fb := by
  simpa [hi] using congrArg State.fb (exec_frame h)

theorem exec_out (h : exec i s = .next t) (hi : i.sendsFrame = false) : t.out = s.out := by
  simpa [hi] using congrArg State.out (exec_frame h)

theorem exec_quit (h : exec i s = .next t) (hi : i.sendsFrame = false) : t.quit = s.quit := by
  simpa [hi] using congrArg State.quit (exec_frame h)

end

/-- A result and its flag write Vx and VF only (R25). -/
theorem State.setRegThenFlag_keepsRegs (s : State) (x : Reg) (b f : Byte) :
    KeepsRegsBut [x, VF] s (s.setRegThenFlag x b f) := by
  intro r hr
  simp only [List.mem_cons, List.not_mem_nil, or_false, not_or] at hr
  rw [State.reg_setRegThenFlag, if_neg hr.2, if_neg hr.1]

/-- An instruction writes no register but its destinations. -/
theorem exec_keepsRegsBut {i : Instr} {s t : State} (h : exec i s = .next t) :
    KeepsRegsBut i.destinations s t := by
  by_cases hd : i.destinations.isEmpty
  · intro r _
    exact State.reg_congr (by simpa [hd] using congrArg State.v (exec_frame h)) r
  · cases i
    case drw x y n =>
      obtain ⟨f, v, hv, ⟨_, e⟩ | ⟨_, e⟩ | ⟨_, _, e⟩⟩ := exec_drw_cases x y n s <;>
        cases e.symm.trans h <;> exact fun r hr => hv r (List.ne_of_not_mem_cons hr)
    case ldVxK x =>
      rcases exec_ldVxK_cases x s with ⟨_, _, e⟩ | ⟨_, e⟩ <;> cases e.symm.trans h
      · exact fun r hr => s.reg_setReg_ne _ (List.ne_of_not_mem_cons hr)
      · exact fun _ _ => rfl
    case ldVxMem x =>
      obtain ⟨v, w, hv, e | ⟨_, _, e⟩⟩ := exec_ldVxMem_cases x s <;> cases e.symm.trans h <;>
        exact fun r hr => hv r (mt (mem_regsUpTo x r).2 hr)
    case orReg | andReg | xorReg | addReg | subReg | subnReg | shrReg | shlReg =>
      cases h
      exact s.setRegThenFlag_keepsRegs _ _ _
    case ldImm | addImm | ldReg | rnd | ldVxDt =>
      cases h
      exact fun r hr => State.reg_setReg_ne _ _ (List.ne_of_not_mem_cons hr)
    all_goals exact absurd rfl hd

/-- Settles O24: the stack is in the frame of every other instruction. -/
theorem onlyCallAndReturnTouchTheStack : Obligations.OnlyCallAndReturnTouchTheStack := by
  intro i s t h hret hcall
  refine exec_stack h ?_
  cases i
  case ret => exact absurd rfl hret
  case call nnn => exact absurd rfl (hcall nnn)
  all_goals rfl

/-- Settles O25: framebuffer and sent frame are in the frame of every other instruction. -/
theorem onlyClearAndDrawTouchTheFrame : Obligations.OnlyClearAndDrawTouchTheFrame := by
  intro i s t h hcls hdrw
  have hi := Instr.sendsFrame_eq_false hcls hdrw
  exact ⟨fun r c => by simp only [State.pixel, exec_fb h hi], exec_out h hi⟩

/-- Settles O26: an instruction under which `I` moves is one of the five that may write it. -/
theorem onlyFiveInstructionsWriteTheIndex : Obligations.OnlyFiveInstructionsWriteTheIndex := by
  intro i s t h hne
  have hi : i.writesIndex ≠ false := mt (exec_index h) hne
  cases i
  case ldI | addIVx | ldFVx | ldMemVx | ldVxMem => simp
  all_goals exact absurd rfl hi

/-- Settles O27: an instruction under which VF moves has it among its destinations. -/
theorem onlyListedInstructionsWriteTheFlag : Obligations.OnlyListedInstructionsWriteTheFlag := by
  intro i s t h hne
  have hmem : VF ∈ i.destinations := by_contra fun hn => hne (exec_keepsRegsBut h VF hn)
  cases i
  case orReg x y | andReg x y | xorReg x y | addReg x y | subReg x y | subnReg x y
    | shrReg x y | shlReg x y => exact .inl ⟨x, y, by simp⟩
  case drw x y n => exact .inr (.inl ⟨x, y, n, rfl⟩)
  case ldImm x nn | addImm x nn | rnd x nn =>
    obtain rfl := List.mem_singleton.1 hmem
    exact .inr (.inr (.inl ⟨nn, by simp⟩))
  case ldReg x y =>
    obtain rfl := List.mem_singleton.1 hmem
    exact .inr (.inr (.inr (.inl ⟨y, rfl⟩)))
  case ldVxDt x | ldVxK x =>
    obtain rfl := List.mem_singleton.1 hmem
    exact .inr (.inr (.inr (.inr (by simp))))
  case ldVxMem x =>
    obtain rfl : x = VF := Fin.ext (le_antisymm x.is_le ((mem_regsUpTo x VF).1 hmem))
    exact .inr (.inr (.inr (.inr (by simp))))
  all_goals exact absurd hmem List.not_mem_nil

/-! ## Quit -/

/-- An instruction may set quit, by a Flush, and never clears it (R35, R331). -/
theorem exec_keeps_quit {i : Instr} {s t : State} (h : exec i s = .next t) (hq : s.quit = true) :
    t.quit = true := by
  by_cases hi : i.sendsFrame = false
  · rw [exec_quit h hi, hq]
  · cases i
    case cls =>
      rcases exec_cls_cases s with ⟨_, e⟩ | ⟨_, e⟩ <;> cases e.symm.trans h <;> simp [hq]
    case drw x y n =>
      obtain ⟨_, _, _, ⟨_, e⟩ | ⟨_, e⟩ | ⟨_, _, e⟩⟩ := exec_drw_cases x y n s <;>
        cases e.symm.trans h <;> simp [hq]
    all_goals exact absurd rfl hi

theorem runSlot_keeps_quit {s t : State} (h : runSlot s = .next t) (hq : s.quit = true) :
    t.quit = true := by
  obtain ⟨u, rfl, ⟨_, _, rfl⟩ | ⟨_, _, _, _, rfl⟩ | ⟨w, i, _, _, hi⟩⟩ := runSlot_cases h
  · exact hq
  · exact hq
  · exact (exec_keeps_quit hi hq : u.quit = true)

@[simp] theorem State.timerTick_quit (s : State) : s.timerTick.state.quit = s.quit := by
  rcases s.timerTick_cases with ⟨_, e⟩ | ⟨_, _, e⟩ | ⟨_, _, e⟩ <;> rw [e] <;> rfl

@[simp] theorem State.beginTick_quit (s : State) : s.beginTick.quit = s.quit := by
  rcases s.beginTick_cases with ⟨_, e⟩ | ⟨_, e⟩ <;> rw [e]
  exact State.timerTick_quit _

theorem State.poll_quit (s : State) : s.poll.quit = (s.quit || s.pollAnswer.quitReq) := rfl

theorem State.endTick_keeps_quit {s : State} (hq : s.quit = true) : s.endTick.quit = true := by
  rcases s.endTick_cases with ⟨_, e⟩ | ⟨_, _, e⟩ | ⟨_, _, _, e⟩ | ⟨_, _, _, e⟩ <;> rw [e] <;>
    simp [State.poll_quit, hq]

/-- Settles O22, part by part of a frame tick. -/
theorem quitIsNeverCleared : Obligations.QuitIsNeverCleared := by
  intro s t h hq
  obtain ⟨_, ⟨_, rfl⟩ | ⟨_, _, rfl⟩ | ⟨_, _, hc⟩⟩ := step_cases h
  · rw [State.beginTick_quit, hq]
  · exact State.endTick_keeps_quit hq
  · exact runSlot_keeps_quit hc hq

/-! ## Reset and load -/

theorem resetWith_inv (cfg : Config) : (State.resetWith cfg).Inv where
  memCanonical := reset_mem_wf cfg
  stackBounded := Nat.zero_le _
  slotBounded := Nat.zero_le _
  faultRecorded := by simp [State.resetWith]
  endedByQuit := fun h => Bool.noConfusion h
  frameShown := fun _ => rfl

/-- What a program that fits leaves after the load (R350, R352): the reset state but for memory,
which stays canonical and holds the program over the reset contents. -/
theorem loadProgram_eq_next {cfg : Config} {program : List Byte}
    (h : program.length ≤ maxProgramLen) :
    ∃ m, Memory.wf cfg m ∧ loadProgram cfg program = .next { State.resetWith cfg with mem := m } ∧
      ∀ a, memGet cfg m a =
        if programBase ≤ a ∧ a < programBase + program.length then
          (program[a - programBase]?).getD 0
        else unlistedByte cfg a := by
  obtain ⟨m, hm, e, hg⟩ := pokeBytes_spec program programBase (State.resetWith cfg)
    (by simp only [programBase, memSize, maxProgramLen] at h ⊢; omega)
  exact ⟨m, hm (reset_mem_wf cfg), by rw [loadProgram, if_pos h, e], hg⟩

/-- A program that is too long is refused (R352). -/
theorem loadProgram_eq_refused {cfg : Config} {program : List Byte}
    (h : maxProgramLen < program.length) :
    loadProgram cfg program = .refused (.programTooLong program.length) :=
  if_neg (not_le.2 h)

/-- Settles O21: the load writes memory only, and reset meets the invariant. -/
theorem loadedResetMeetsTheInvariant : Obligations.LoadedResetMeetsTheInvariant := by
  intro cfg program s h
  rcases le_or_gt program.length maxProgramLen with hlen | hlen
  · obtain ⟨m, hm, e, _⟩ := loadProgram_eq_next (cfg := cfg) hlen
    cases e.symm.trans h
    exact { resetWith_inv cfg with memCanonical := hm }
  · cases (loadProgram_eq_refused hlen).symm.trans h

@[simp] theorem resetWith_reg (cfg : Config) (r : Reg) : (State.resetWith cfg).reg r = 0 := by
  simp [State.reg, State.resetWith]

@[simp] theorem resetWith_pixel (cfg : Config) (r : RowIx) (c : ColIx) :
    (State.resetWith cfg).pixel r c = false := by
  simp [State.pixel, State.resetWith, blankFrame]

/-- Settles O31: the load is read off byte by byte, the font of the default configuration being the
80 bytes the statement writes out; the rest is the reset state. -/
theorem resetLoadsProgramAndFont : Obligations.ResetLoadsProgramAndFont := by
  intro program
  refine ⟨loadProgram_eq_refused, fun hlen => ?_⟩
  obtain ⟨m, _, e, hg⟩ := loadProgram_eq_next (cfg := Config.default) hlen
  exact ⟨_, e, resetWith_reg Config.default, rfl, rfl, rfl, rfl, rfl, rfl,
    resetWith_pixel Config.default, rfl, rfl, rfl, rfl, rfl, rfl, rfl, fun a _ => hg a⟩

/-! ## CALL and RET -/

/-- RET takes the top of the stack as pc (R151). -/
theorem exec_ret_of_stack {s : State} {st : List Word} {w : Word} (h : s.stack = st ++ [w]) :
    exec .ret s = .next { s with stack := st, pc := w } := by
  rcases exec_ret_cases s with ⟨st', w', h', e⟩ | ⟨h', _⟩
  · obtain ⟨rfl, hw⟩ := List.append_inj' (h.symm.trans h') rfl
    obtain rfl := List.singleton_inj.1 hw
    exact e
  · simp [h] at h'

/-- CALL below the bound pushes pc and jumps (R153). -/
theorem exec_call_of_lt {s : State} (nnn : Addr) (h : s.sp < s.cfg.stackDepth) :
    exec (.call nnn) s = .next ((s.push s.pc).setPc (zextAddr nnn)) := by
  rcases exec_call_cases nnn s with ⟨_, e⟩ | ⟨h', _⟩
  · exact e
  · exact absurd h (not_lt.2 h')

/-- Settles O44: RET pops the pc that CALL pushed. -/
theorem returnUndoesCall : Obligations.ReturnUndoesCall :=
  fun s nnn h =>
    ⟨_, s, exec_call_of_lt nnn h, exec_ret_of_stack (st := s.stack) (w := s.pc) rfl, rfl⟩

/-! ## The words of ops 8 and F -/

/-- A word of op 8 is decoded by its last nibble (R96). -/
theorem decodeWord_op8 (lenient : Bool) (x y : Reg) (n : BitVec 4) :
    decodeWord lenient (0x8#4 ++ BitVec.ofNat 4 x.val ++ BitVec.ofNat 4 y.val ++ n) =
      decodeOp8 (formatXY 0x8 x y n) := by
  rw [append_formatXY]
  simp [decodeWord]

/-- A word of op F is decoded by its low byte (R96). -/
theorem decodeWord_opF (lenient : Bool) (x : Reg) (nn : Byte) :
    decodeWord lenient (0xF#4 ++ BitVec.ofNat 4 x.val ++ nn) = decodeOpF (formatXK 0xF x nn) := by
  rw [append_formatXK]
  simp [decodeWord]

/-! ## The sound timer -/

/-- The tone flips exactly where one of the old and the new ST is 0 (R36). -/
theorem State.tone_flips {s : State} {b : Byte} (h : (b != 0) ≠ s.tone) : (b != 0) = !s.tone :=
  Bool.eq_not_of_ne h

/-- Settles O53, outcome by outcome of setting ST. -/
theorem soundTimerDrivesTheTone : Obligations.SoundTimerDrivesTheTone := by
  intro s x
  refine ⟨by rw [decodeWord_opF]; simp [decodeOpF], ?_⟩
  rw [← State.tone_stands_iff]
  rcases exec_ldStVx_cases x s with ⟨hs, e⟩ | ⟨hs, ha, e⟩ | ⟨hs, ha, e⟩
  · exact ⟨fun _ => ⟨_, e, rfl, hs, fun _ _ => rfl, fun _ _ => rfl, rfl⟩,
      fun hn => absurd hs hn, fun hn => absurd hs hn⟩
  · exact ⟨fun h => absurd h hs,
      fun _ _ => ⟨_, e, rfl, State.tone_flips hs, fun _ _ => rfl, fun _ _ => rfl, rfl⟩,
      fun _ hf => Bool.noConfusion (ha.symm.trans hf)⟩
  · exact ⟨fun h => absurd h hs, fun _ hf => Bool.noConfusion (ha.symm.trans hf),
      fun _ _ => ⟨_, e, rfl, State.tone_flips hs, fun _ _ => rfl, fun _ _ => rfl, rfl⟩⟩

/-! ## A result and its flag -/

section
variable (s : State) (x : Reg) (b f : Byte)

@[simp] theorem State.reg_setRegThenFlag_flag : (s.setRegThenFlag x b f).reg VF = f :=
  s.reg_setRegThenFlag x VF b f

theorem State.reg_setRegThenFlag_dest {x : Reg} (hx : x ≠ VF) :
    (s.setRegThenFlag x b f).reg x = b := by
  rw [State.reg_setRegThenFlag, if_neg hx, if_pos rfl]

theorem State.setRegThenFlag_onlyRegs : OnlyRegs [x, VF] s (s.setRegThenFlag x b f) :=
  ⟨s.setRegThenFlag_keepsRegs x b f, fun _ _ => rfl, s.setRegThenFlag_frame x b f⟩

end

/-- A borrow wraps at 256 (R189). -/
theorem sub_toNat_byte (a b : Byte) : (a - b).toNat = (256 + a.toNat - b.toNat) % 256 := by
  have := b.isLt
  rw [BitVec.toNat_sub]
  omega

/-- Settles O37: the sum is written before the carry. -/
theorem addSetsTheCarry : Obligations.AddSetsTheCarry := by
  intro s x y
  refine ⟨by rw [decodeWord_op8]; simp [decodeOp8], _, rfl, ?_, fun hx => ?_,
    s.setRegThenFlag_onlyRegs _ _ _⟩
  · simp [carryFlag, flagByte]
  · rw [s.reg_setRegThenFlag_dest _ _ hx, BitVec.toNat_add]

/-- Settles O38: the two subtractions differ in the order of their operands alone. -/
theorem subtractionsSetNotBorrow : Obligations.SubtractionsSetNotBorrow := by
  intro s x y
  refine ⟨⟨by rw [decodeWord_op8]; simp [decodeOp8], _, rfl, ?_, fun hx => ?_,
      s.setRegThenFlag_onlyRegs _ _ _⟩,
    ⟨by rw [decodeWord_op8]; simp [decodeOp8], _, rfl, ?_, fun hx => ?_,
      s.setRegThenFlag_onlyRegs _ _ _⟩⟩
  · simp [noBorrowFlag, flagByte]
  · rw [s.reg_setRegThenFlag_dest _ _ hx, sub_toNat_byte]
  · simp [noBorrowFlag, flagByte]
  · rw [s.reg_setRegThenFlag_dest _ _ hx, sub_toNat_byte]

/-- Settles O39: the bit shifted out is taken from Vy before Vx is written. -/
theorem shiftsMoveVyAndKeepTheBitShiftedOut : Obligations.ShiftsMoveVyAndKeepTheBitShiftedOut := by
  intro s x y
  refine ⟨⟨by rw [decodeWord_op8]; simp [decodeOp8], _, rfl, ?_, fun hx => ?_,
      s.setRegThenFlag_onlyRegs _ _ _⟩,
    ⟨by rw [decodeWord_op8]; simp [decodeOp8], _, rfl, ?_, fun hx => ?_,
      s.setRegThenFlag_onlyRegs _ _ _⟩⟩
  · rw [State.reg_setRegThenFlag_flag, lowBitFlag_toNat]
  · rw [s.reg_setRegThenFlag_dest _ _ hx, shiftRight_toNat]
  · rw [State.reg_setRegThenFlag_flag, highBitFlag_toNat]
  · rw [s.reg_setRegThenFlag_dest _ _ hx, shiftLeft_toNat]

end Sys2Proof.Machine
end

section
/-! PROOFS. The statements about memory and what is fetched from it: the arbiter and its address
policies, the cycle that runs the fetched word, the instructions that write memory, and the display
output that no step reads back. -/

namespace Sys2Proof.Machine

/-! ## The arbiter -/

section
variable {s : State} {a A : Nat} {b : Byte}

/-- A read sees the byte written at its reduced address (R62, R63). -/
theorem State.memRead_poke_of_eq (h : reduceAddr s.cfg.addrPolicy a = some A) :
    (s.poke A b).memRead a = some b :=
  State.memRead_eq_some.2 ⟨A, h, by simp⟩

/-- A read at another reduced address, or at none, sees what it saw (R63). -/
theorem State.memRead_poke_of_ne (h : reduceAddr s.cfg.addrPolicy a ≠ some A) :
    (s.poke A b).memRead a = s.memRead a := by
  simp only [State.memRead, State.poke_cfg]
  cases hr : reduceAddr s.cfg.addrPolicy a with
  | none => rfl
  | some B =>
    have hne : B ≠ A := fun e => h (hr.trans (congrArg some e))
    simp [hne]

/-- Under `Wrap` every read succeeds, at the address mod 4096 (R64). -/
theorem State.memRead_wrap (h : s.cfg.addrPolicy = .wrap) (a : Nat) :
    s.memRead a = some (s.peek (a % memSize)) := by
  simp [State.memRead, h]

/-- Under `Wrap` addresses equal mod 4096 are the same byte (R64). -/
theorem State.memRead_wrap_congr (h : s.cfg.addrPolicy = .wrap) {c : Nat}
    (e : a % memSize = c % memSize) : s.memRead a = s.memRead c := by
  rw [State.memRead_wrap h, State.memRead_wrap h, e]

/-- Under `Fault` no address above 0xFFF can be read (R64). -/
theorem State.memRead_above (h : s.cfg.addrPolicy = .fault) (ha : 0xFFF < a) :
    s.memRead a = none :=
  State.memRead_eq_none.2 (reduceAddr_eq_none.2 ⟨h, ha⟩)

/-- Up to 0xFFF every address can be read, under either policy (R64). -/
theorem State.memRead_le (s : State) (ha : a ≤ 0xFFF) : ∃ b, s.memRead a = some b :=
  Option.ne_none_iff_exists'.1 fun h =>
    absurd (reduceAddr_eq_none.1 (State.memRead_eq_none.1 h)).2 (not_lt.2 ha)

end

/-- Settles O32: the arbiter writes one byte, at the reduced address. -/
theorem readAfterWriteThroughTheArbiter : Obligations.ReadAfterWriteThroughTheArbiter := by
  intro s t a b h
  obtain ⟨A, hA, _, rfl⟩ := State.memWrite_eq_some h
  rw [hA]
  exact ⟨State.memRead_poke_of_eq hA, fun _ hne => State.memRead_poke_of_ne hne, rfl⟩

/-! ## Fetch and the cycle -/

section
variable {s : State}

theorem State.fetch_eq_word {b0 b1 : Byte} (h0 : s.memRead s.pc.toNat = some b0)
    (h1 : s.memRead (s.pc.toNat + 1) = some b1) : s.fetch = .word (b0 ++ b1) := by
  simp only [State.fetch, h0, h1]
  rfl

theorem State.fetch_eq_bounds_first (h0 : s.memRead s.pc.toNat = none) :
    s.fetch = .bounds s.pc.toNat := by
  simp only [State.fetch, h0]

theorem State.fetch_eq_bounds_second {b0 : Byte} (h0 : s.memRead s.pc.toNat = some b0)
    (h1 : s.memRead (s.pc.toNat + 1) = none) : s.fetch = .bounds (s.pc.toNat + 1) := by
  simp only [State.fetch, h0, h1]

/-- A fetch that faults halts with pc not advanced and the word 0 (R122, R312). -/
theorem runSlot_of_bounds {a : Nat} (h : s.fetch = .bounds a) :
    runSlot s = .next (s.raise .memBounds (.address a) s.pc 0).countSlot := by
  simp only [runSlot, cycle, h]

/-- An illegal word halts after the advance (R123, R313). -/
theorem runSlot_of_unknown {w : Word} {why : Illegal} (h : s.fetch = .word w)
    (hd : decodeWord s.cfg.lenientDecode w = .unknown why) :
    runSlot s = .next ((s.advance w).raiseIns .unknownOpcode .noInfo).countSlot := by
  simp only [runSlot, cycle, h, hd]

/-- Any other word runs as the instruction it decodes to, after the advance (R122, R123). -/
theorem runSlot_of_exec {t : State} {w : Word} {i : Instr} (h : s.fetch = .word w)
    (hd : decodeWord s.cfg.lenientDecode w = .ok i) (hx : exec i (s.advance w) = .next t) :
    runSlot s = .next t.countSlot := by
  simp only [runSlot, cycle, h, hd, hx]

/-- Under `Fault` the fetch fails from 0xFFF on, at the first of its two addresses above 0xFFF
(R64, R122). -/
theorem State.fetch_eq_bounds_of_fault (h : s.cfg.addrPolicy = .fault) (hpc : 0xFFF ≤ s.pc.toNat) :
    s.fetch = .bounds (if s.pc.toNat = 0xFFF then 0x1000 else s.pc.toNat) := by
  by_cases hlast : s.pc.toNat = 0xFFF
  · obtain ⟨b0, h0⟩ := s.memRead_le hlast.le
    rw [State.fetch_eq_bounds_second h0 (State.memRead_above h (by omega)), if_pos hlast, hlast]
  · rw [State.fetch_eq_bounds_first (State.memRead_above h (by omega)), if_neg hlast]

end

/-- Settles O8: the cycle fetches, decodes, advances and executes. -/
theorem stepRunsTheDecodedInstruction : Obligations.StepRunsTheDecodedInstruction := by
  intro s b0 b1 i hs h0 h1 hd
  obtain ⟨t, ht⟩ := exec_next i (s.advance (b0 ++ b1))
  exact ⟨t, ht, (step_inBatch hs).trans (runSlot_of_exec (State.fetch_eq_word h0 h1) hd ht)⟩

/-- Settles O10: reads under `Wrap`, and the fetch that fails under `Fault`. -/
theorem fetchReducesItsAddresses : Obligations.FetchReducesItsAddresses := by
  intro s hs
  refine ⟨fun hw => ⟨State.memRead_wrap hw _, State.memRead_wrap hw _⟩, fun hf hpc => ?_⟩
  rw [step_inBatch hs, runSlot_of_bounds (State.fetch_eq_bounds_of_fault hf hpc)]
  rfl

/-! ## The instructions that write memory -/

theorem exec_mem {i : Instr} {s t : State} (h : exec i s = .next t) (hi : i.writesMemory = false) :
    t.mem = s.mem := by
  simpa [hi] using congrArg State.mem (exec_frame h)

/-- Settles O23: memory is in the frame of every other instruction. -/
theorem onlyBcdAndDumpWriteMemory : Obligations.OnlyBcdAndDumpWriteMemory := by
  intro i s t h hbcd hdump
  have hi : i.writesMemory = false := by
    cases i
    case ldBVx x => exact absurd rfl (hbcd x)
    case ldMemVx x => exact absurd rfl (hdump x)
    all_goals rfl
  exact fun a _ => State.peek_congr (exec_mem h hi) (exec_cfg h) a

/-- Where every address can be written, FX55 leaves registers 0 to x at `I` onwards and `I` past
them, and changes no other field (R285). -/
theorem exec_ldMemVx_of_readable {s : State} {x : Reg}
    (hr : ∀ k ≤ x, s.memRead (s.regAddr k) ≠ none) :
    ∃ m, exec (.ldMemVx x) s =
        .next { s with mem := m, i := s.i + BitVec.ofNat 16 (x.val + 1) } ∧
      ∀ k ≤ x, State.memRead { s with mem := m } (s.regAddr k) = some (s.reg k) := by
  obtain ⟨m, he, hm, _⟩ := dumpRegs_spec (regsUpTo x) s (by simp [memSize]; omega) fun k hk => by
    rw [length_regsUpTo] at hk
    exact hr ⟨k, by omega⟩ (Fin.le_def.2 (by simp; omega))
  rw [length_regsUpTo] at he
  refine ⟨m, by rw [exec, execLdMemVx, he]; rfl, fun k hk => ?_⟩
  have hlt : k.val < (regsUpTo x).length := by
    rw [length_regsUpTo]
    exact Nat.lt_succ_of_le hk
  have := hm k.val hlt
  rwa [show (regsUpTo x)[k.val] = k from Fin.ext (getElem_regsUpTo x k.val hlt)] at this

/-- Settles O33: under `Wrap` the addresses `I` runs over are those of the next fetch. -/
theorem storedBytesAreFetchedNext : Obligations.StoredBytesAreFetchedNext := by
  intro s hw hpc
  obtain ⟨m, he, hm⟩ := exec_ldMemVx_of_readable (s := s) (x := 1) fun k _ => by
    simp [State.memRead_wrap hw]
  have h0 := hm 0 (by decide)
  have h1 := hm 1 (by decide)
  have hfirst : s.regAddr 0 = s.pc.toNat := by simp [State.regAddr, hpc]
  have hsecond : s.regAddr 1 % memSize = (s.pc.toNat + 1) % memSize := by
    simp [State.regAddr, hpc, memSize]
  refine ⟨_, he, rfl, ?_, ?_⟩
  · rw [← hfirst]
    exact h0
  · exact (State.memRead_wrap_congr (s := { s with mem := m }) hw hsecond).symm.trans h1

/-! ## The outcomes of RET and FX0A by their conditions -/

/-- RET with an empty stack halts (R151, R314). -/
theorem exec_ret_of_empty {s : State} (h : s.stack = []) :
    exec .ret s = .next (s.raiseIns .stackUnderflow .noInfo) := by
  rcases exec_ret_cases s with ⟨st, w, h', _⟩ | ⟨_, e⟩
  · simp [h] at h'
  · exact e

/-- FX0A stores the key that was released (R254). -/
theorem exec_ldVxK_of_some {s : State} {x : Reg} {k : Key} (h : s.firstReleased = some k) :
    exec (.ldVxK x) s = .next (s.setReg x (keyByte k)) := by
  simp only [exec, execLdVxK, h]

/-- FX0A with no key released puts pc back (R254). -/
theorem exec_ldVxK_of_none {s : State} {x : Reg} (h : s.firstReleased = none) :
    exec (.ldVxK x) s = .next (s.setPc (s.pc - 2)) := by
  simp only [exec, execLdVxK, h]

/-! ## What has been sent to the display -/

theorem Flow.state_eq_of_withOut {o : DisplayOut} {f g : Flow} (h : g = f.withOut o) :
    g.state = { f.state with out := o } := by
  subst h
  cases f <;> rfl

section
variable (o : DisplayOut) (s : State)

theorem State.skipIf_withOut (c : Bool) :
    State.skipIf { s with out := o } c = { s.skipIf c with out := o } := by
  cases c <;> rfl

theorem State.setSound_withOut (b : Byte) (a w : Word) :
    State.setSound { s with out := o } b a w = (s.setSound b a w).withOut o := by
  rcases s.setSound_cases b a w with ⟨ht, e⟩ | ⟨ht, ha, e⟩ | ⟨ht, ha, e⟩ <;> rw [e]
  · exact if_pos ht
  · exact (if_neg ht).trans (if_pos ha)
  · exact (if_neg ht).trans (if_neg (Bool.eq_false_iff.1 ha))

theorem State.timerTick_withOut :
    State.timerTick { s with out := o } = s.timerTick.withOut o :=
  State.setSound_withOut o (s.setDt (countDown s.dt)) _ _ _

theorem State.timerAt_withOut (p : TimerPhase) :
    State.timerAt { s with out := o } p = (s.timerAt p).withOut o := by
  unfold State.timerAt
  split
  · exact State.timerTick_withOut o s
  · rfl

theorem State.beginTick_withOut :
    State.beginTick { s with out := o } = { s.beginTick with out := o } :=
  Flow.state_eq_of_withOut
    (State.timerAt_withOut o { s with slot := 0, batchEnd := false, inTick := true } .beforeBatch)

theorem State.endTick_withOut :
    State.endTick { s with out := o } = { s.endTick with out := o } := by
  unfold State.endTick
  rw [State.timerAt_withOut]
  cases s.timerAt .afterBatch <;> rfl

/-- A Flush after a drawing that may have halted (R220): what was sent before shows in `out` alone. -/
theorem Flow.flushAndEndBatch_withOut (f : Flow) :
    { ((f.withOut o).andThen State.flushAndEndBatch).state with
      out := (f.andThen State.flushAndEndBatch).state.out } =
    (f.andThen State.flushAndEndBatch).state := by
  cases f with
  | go u => exact State.flushAndEndBatch_withOut o u
  | halt u => rfl

/-- An instruction that sends no frame commutes with a change of what has been sent (R76). -/
theorem exec_withOut {i : Instr} {t : State} (h : exec i s = .next t) (hi : i.sendsFrame = false) :
    exec i { s with out := o } = .next { t with out := o } := by
  cases i
  case cls | drw => cases hi
  case ret =>
    rcases exec_ret_cases s with ⟨st, w, hst, e⟩ | ⟨hst, e⟩ <;> cases e.symm.trans h
    · exact exec_ret_of_stack hst
    · exact exec_ret_of_empty hst
  case call nnn =>
    rcases exec_call_cases nnn s with ⟨hlt, e⟩ | ⟨hle, e⟩ <;> cases e.symm.trans h
    · exact exec_call_of_lt nnn hlt
    · exact congrArg _ (if_pos hle)
  case ldVxK x =>
    rcases exec_ldVxK_cases x s with ⟨k, hk, e⟩ | ⟨hk, e⟩ <;> cases e.symm.trans h
    · exact exec_ldVxK_of_some hk
    · exact exec_ldVxK_of_none hk
  case ldStVx x =>
    cases h
    exact congrArg _ (Flow.state_eq_of_withOut (State.setSound_withOut o s _ _ _))
  case ldBVx x =>
    cases h
    exact congrArg _ (Flow.state_eq_of_withOut (storeBytes_withOut o _ _ s))
  case ldMemVx x =>
    cases h
    exact congrArg _ (Flow.state_eq_of_withOut (dumpRegs_withOut o _ s))
  case ldVxMem x =>
    cases h
    exact congrArg _ (Flow.state_eq_of_withOut (loadRegs_withOut o _ s))
  case seImm | sneImm | seReg | sneReg | skp | sknp =>
    cases h
    exact congrArg _ (State.skipIf_withOut o s _)
  all_goals
    cases h
    rfl

/-- CLS and DRW send the frame they have drawn, whatever was sent before; everything else they do
is the same (R76, R332). -/
theorem exec_withOut_of_sendsFrame {i : Instr} {t : State} (h : exec i s = .next t)
    (hi : i.sendsFrame = true) :
    ∃ t', exec i { s with out := o } = .next t' ∧ { t' with out := t.out } = t := by
  cases i
  case cls =>
    cases h
    exact ⟨_, rfl, State.flushAndEndBatch_withOut o s.clearScreen⟩
  case drw x y n =>
    cases h
    have hd := drawRows_withOut o (originColumn (s.reg x)) (originRow (s.reg y)) n.toNat 0
      (s.setReg VF 0)
    exact ⟨_, congrArg Host.Outcome.next (congrArg Flow.state
      (congrArg (Flow.andThen · State.flushAndEndBatch) hd)), Flow.flushAndEndBatch_withOut o _⟩
  all_goals cases hi

theorem runSlot_withOut {t : State} (h : runSlot s = .next t) :
    ∃ t', runSlot { s with out := o } = .next t' ∧ { t' with out := t.out } = t := by
  obtain ⟨u, rfl, ⟨a, hf, rfl⟩ | ⟨w, _, hf, hd, rfl⟩ | ⟨w, i, hf, hd, hx⟩⟩ := runSlot_cases h
  · exact ⟨_, runSlot_of_bounds hf, rfl⟩
  · exact ⟨_, runSlot_of_unknown hf hd, rfl⟩
  · have hx' : ∃ u', exec i { s.advance w with out := o } = .next u' ∧
        { u' with out := u.out } = u := by
      cases hi : i.sendsFrame with
      | false => exact ⟨_, exec_withOut o _ hx hi, rfl⟩
      | true => exact exec_withOut_of_sendsFrame o _ hx hi
    obtain ⟨u', hu', e⟩ := hx'
    exact ⟨_, runSlot_of_exec hf hd hu', congrArg State.countSlot e⟩

end

/-- Settles O30, part by part of a frame tick. -/
theorem framesSentAreNeverReadBack : Obligations.FramesSentAreNeverReadBack := by
  intro s t o h
  obtain ⟨hr, ⟨hi, rfl⟩ | ⟨hi, hb, rfl⟩ | ⟨hi, hb, hc⟩⟩ := step_cases h
  · exact ⟨_, step_beginTick hr hi, by rw [State.beginTick_withOut]⟩
  · exact ⟨_, step_endTick hr hi hb, by rw [State.endTick_withOut]⟩
  · obtain ⟨t', ht', e⟩ := runSlot_withOut o s hc
    exact ⟨t', (step_inBatch (s := { s with out := o }) ⟨hr, hi, hb⟩).trans ht', e⟩

end Sys2Proof.Machine
end

section
/-! PROOFS. The statements about the encoding (round trip, the rows of R95, the illegal words of R97,
the words of R98, the operand lines of R105), and about what single instructions do: loads, jumps,
skips, keys and timers, the index register, FX33 and DRW. -/

namespace Sys2Proof

/-! ## Round trip -/

/-- Decoding gives back the instruction of a word put together by `encode` (R95, R96, R98). -/
theorem decodeWord_encode (lenient : Bool) (i : Instr) : decodeWord lenient (encode i) = .ok i := by
  cases i
  case cls | ret => revert lenient; decide
  case jp | call | ldI | jpV0 => simp [encode, decodeWord]
  case seImm | sneImm | ldImm | addImm | rnd => simp [encode, decodeWord]
  case seReg | sneReg | drw => simp [encode, decodeWord]
  case ldReg | orReg | andReg | xorReg | addReg | subReg | shrReg | subnReg | shlReg =>
    simp [encode, decodeWord, decodeOp8]
  case skp | sknp => simp [encode, decodeWord, decodeOpE]
  all_goals simp [encode, decodeWord, decodeOpF]

section
variable {w : Word} {i : Instr} {op n : BitVec 4} {nn : Byte}

theorem formatA_of_fieldOp (hop : fieldOp w = op) : formatA op (fieldNNN w) = w := by
  rw [← hop, formatA_fields]

theorem formatXK_of_fieldOp (hop : fieldOp w = op) :
    formatXK op (fieldX w) (fieldNN w) = w := by
  rw [← hop, formatXK_fields]

theorem formatXY_of_fieldOp (hop : fieldOp w = op) :
    formatXY op (fieldX w) (fieldY w) (fieldN w) = w := by
  rw [← hop, formatXY_fields]

/-- A word of format XS is fixed by its op, its register and its sub-opcode (R93). -/
theorem formatXK_of_fields (hop : fieldOp w = op) (hnn : fieldNN w = nn) :
    formatXK op (fieldX w) nn = w := by
  rw [← hnn, formatXK_of_fieldOp hop]

/-- A word of format XY is fixed by its op, its registers and its last nibble (R93). -/
theorem formatXY_of_fields (hop : fieldOp w = op) (hn : fieldN w = n) :
    formatXY op (fieldX w) (fieldY w) n = w := by
  rw [← hn, formatXY_of_fieldOp hop]

theorem encode_of_decodeOp0 (h : decodeOp0 false w = .ok i) : encode i = w := by
  simp only [decodeOp0, Bool.false_eq_true, if_false] at h
  split_ifs at h with hw hw <;> cases h <;> exact hw.symm

theorem encode_of_decodeOp8 (hop : fieldOp w = 0x8) (h : decodeOp8 w = .ok i) : encode i = w := by
  unfold decodeOp8 at h
  split_ifs at h with hn hn hn hn hn hn hn hn hn <;> cases h <;> exact formatXY_of_fields hop hn

theorem encode_of_decodeOpE (hop : fieldOp w = 0xE) (h : decodeOpE w = .ok i) : encode i = w := by
  unfold decodeOpE at h
  split_ifs at h with hnn hnn <;> cases h <;> exact formatXK_of_fields hop hnn

theorem encode_of_decodeOpF (hop : fieldOp w = 0xF) (h : decodeOpF w = .ok i) : encode i = w := by
  unfold decodeOpF at h
  split_ifs at h with hnn hnn hnn hnn hnn hnn hnn hnn hnn <;> cases h <;>
    exact formatXK_of_fields hop hnn

/-- Every field of a word that decodes strictly stands in its instruction or is fixed by the row
(R96). -/
theorem encode_of_decodeWord (h : decodeWord false w = .ok i) : encode i = w := by
  rcases nibble_cases (fieldOp w) with hop | hop | hop | hop | hop | hop | hop | hop | hop | hop |
    hop | hop | hop | hop | hop | hop <;> simp [decodeWord, hop] at h
  · exact encode_of_decodeOp0 h
  · subst h; exact formatA_of_fieldOp hop
  · subst h; exact formatA_of_fieldOp hop
  · subst h; exact formatXK_of_fieldOp hop
  · subst h; exact formatXK_of_fieldOp hop
  · split at h <;> cases h; exact formatXY_of_fields hop ‹_›
  · subst h; exact formatXK_of_fieldOp hop
  · subst h; exact formatXK_of_fieldOp hop
  · exact encode_of_decodeOp8 hop h
  · split at h <;> cases h; exact formatXY_of_fields hop ‹_›
  · subst h; exact formatA_of_fieldOp hop
  · subst h; exact formatA_of_fieldOp hop
  · subst h; exact formatXK_of_fieldOp hop
  · subst h; exact formatXY_of_fieldOp hop
  · exact encode_of_decodeOpE hop h
  · exact encode_of_decodeOpF hop h

end

section
variable (lenient : Bool) {op n : BitVec 4} {x y : Reg} {nn : Byte} {i : Instr}

/-- The round trip for a word given by its register numbers and fields (R93). -/
theorem decodeWord_wordXK (h : encode i = formatXK op x nn) :
    decodeWord lenient (op ++ BitVec.ofNat 4 x.val ++ nn) = .ok i := by
  rw [append_formatXK, ← h, decodeWord_encode]

theorem decodeWord_wordXY (h : encode i = formatXY op x y n) :
    decodeWord lenient (op ++ BitVec.ofNat 4 x.val ++ BitVec.ofNat 4 y.val ++ n) = .ok i := by
  rw [append_formatXY, ← h, decodeWord_encode]

end

/-- Settles O2. -/
theorem decodeGivesBackEveryEncodedInstruction :
    Obligations.DecodeGivesBackEveryEncodedInstruction := decodeWord_encode

/-- Settles O3. -/
theorem strictDecodeIgnoresNoBit : Obligations.StrictDecodeIgnoresNoBit :=
  fun _ _ => encode_of_decodeWord

/-- Settles O1, by evaluation of the decoder. -/
theorem writtenOutWordsDecode : Obligations.WrittenOutWordsDecode := by
  unfold Obligations.WrittenOutWordsDecode
  decide

/-! ## The rows of R95 -/

/-- The row lemmas together. -/
theorem fitsRow : ∀ i : Instr, Laws.FitsRow.Statement i
  | .cls => Laws.FitsRow.cls
  | .ret => Laws.FitsRow.ret
  | .jp nnn => Laws.FitsRow.jp nnn
  | .call nnn => Laws.FitsRow.call nnn
  | .seImm x nn => Laws.FitsRow.seImm x nn
  | .sneImm x nn => Laws.FitsRow.sneImm x nn
  | .seReg x y => Laws.FitsRow.seReg x y
  | .ldImm x nn => Laws.FitsRow.ldImm x nn
  | .addImm x nn => Laws.FitsRow.addImm x nn
  | .ldReg x y => Laws.FitsRow.ldReg x y
  | .orReg x y => Laws.FitsRow.orReg x y
  | .andReg x y => Laws.FitsRow.andReg x y
  | .xorReg x y => Laws.FitsRow.xorReg x y
  | .addReg x y => Laws.FitsRow.addReg x y
  | .subReg x y => Laws.FitsRow.subReg x y
  | .shrReg x y => Laws.FitsRow.shrReg x y
  | .subnReg x y => Laws.FitsRow.subnReg x y
  | .shlReg x y => Laws.FitsRow.shlReg x y
  | .sneReg x y => Laws.FitsRow.sneReg x y
  | .ldI nnn => Laws.FitsRow.ldI nnn
  | .jpV0 nnn => Laws.FitsRow.jpV0 nnn
  | .rnd x nn => Laws.FitsRow.rnd x nn
  | .drw x y n => Laws.FitsRow.drw x y n
  | .skp x => Laws.FitsRow.skp x
  | .sknp x => Laws.FitsRow.sknp x
  | .ldVxDt x => Laws.FitsRow.ldVxDt x
  | .ldVxK x => Laws.FitsRow.ldVxK x
  | .ldDtVx x => Laws.FitsRow.ldDtVx x
  | .ldStVx x => Laws.FitsRow.ldStVx x
  | .addIVx x => Laws.FitsRow.addIVx x
  | .ldFVx x => Laws.FitsRow.ldFVx x
  | .ldBVx x => Laws.FitsRow.ldBVx x
  | .ldMemVx x => Laws.FitsRow.ldMemVx x
  | .ldVxMem x => Laws.FitsRow.ldVxMem x

/-- The word of an instruction is selected by its row (R95). -/
theorem rowOf_selects_encode (i : Instr) : (rowOf i).selects (encode i) = true :=
  beq_iff_eq.2 (fitsRow i)

section
variable {w p : Word}

/-- A row that fixes the top nibble selects by the op (R95). -/
theorem fieldOp_of_mask (h : w &&& 0xF000 = p) : fieldOp w = p.extractLsb' 12 4 := by
  rw [← h, ← formatA_fields w, formatA_mask, fieldOp_formatA, extract_append_high]

/-- A row that fixes the outer nibbles selects by the op and the last nibble (R95). -/
theorem fields_of_mask_nibble (h : w &&& 0xF00F = p) :
    fieldOp w = p.extractLsb' 12 4 ∧ fieldN w = p.extractLsb' 0 4 := by
  rw [← h, ← formatXY_fields w, formatXY_mask_subop, fieldOp_formatXY, fieldN_formatXY,
    extract_append_low, BitVec.extractLsb'_append_eq_of_le (by omega), extract_append_high]
  exact ⟨rfl, rfl⟩

/-- A row that leaves the register free selects by the op and the low byte (R95). -/
theorem fields_of_mask_byte (h : w &&& 0xF0FF = p) :
    fieldOp w = p.extractLsb' 12 4 ∧ fieldNN w = p.extractLsb' 0 8 := by
  rw [← h, ← formatXK_fields w, formatXK_mask_subop, fieldOp_formatXK, fieldNN_formatXK,
    extract_append_low, BitVec.extractLsb'_append_eq_of_le (by omega), extract_append_high]
  exact ⟨rfl, rfl⟩

end

/-- A word that a row selects decodes to an instruction of that row (R96). -/
theorem decodeWord_of_selects {w : Word} {i : Instr} (h : (rowOf i).selects w = true) :
    ∃ j, decodeWord false w = .ok j ∧ rowOf j = rowOf i := by
  have hw : w &&& (rowOf i).mask = (rowOf i).pattern := beq_iff_eq.1 h
  cases i
  case cls | ret =>
    obtain rfl : w = _ := (BitVec.and_allOnes (x := w)).symm.trans hw
    exact ⟨_, rfl, rfl⟩
  case jp | call | seImm | sneImm | ldImm | addImm | ldI | jpV0 | rnd | drw =>
    have hop := fieldOp_of_mask hw
    simp [rowOf] at hop
    simp [decodeWord, hop, rowOf]
  case seReg | sneReg | ldReg | orReg | andReg | xorReg | addReg | subReg | shrReg | subnReg |
      shlReg =>
    have hf := fields_of_mask_nibble hw
    simp [rowOf] at hf
    simp [decodeWord, decodeOp8, hf, rowOf]
  all_goals
    have hf := fields_of_mask_byte hw
    simp [rowOf] at hf
    simp [decodeWord, decodeOpE, decodeOpF, hf, rowOf]

/-- A word matches the row of an instruction exactly if it decodes to an instruction of that row
(R95, R96). -/
theorem selects_iff {w : Word} {i : Instr} :
    (rowOf i).selects w = true ↔ ∃ j, decodeWord false w = .ok j ∧ rowOf j = rowOf i := by
  refine ⟨decodeWord_of_selects, ?_⟩
  rintro ⟨j, hj, hr⟩
  rw [← hr, ← encode_of_decodeWord hj]
  exact rowOf_selects_encode j

/-- Settles O4: a word decodes to one instruction at most, so no two rows select it. -/
theorem decodeFollowsTheOpcodeMap : Obligations.DecodeFollowsTheOpcodeMap := by
  refine ⟨rfl, fun w r hr r' hr' h h' => ?_, fun w r hr => ?_⟩
  · obtain ⟨i, -, rfl⟩ := List.mem_map.1 hr
    obtain ⟨i', -, rfl⟩ := List.mem_map.1 hr'
    obtain ⟨j, hj, e⟩ := selects_iff.1 h
    obtain ⟨j', hj', e'⟩ := selects_iff.1 h'
    obtain rfl : j = j' := Verdict.ok.inj (hj.symm.trans hj')
    exact e.symm.trans e'
  · obtain ⟨i, -, rfl⟩ := List.mem_map.1 hr
    exact selects_iff

/-! ## The illegal words of R97 -/

section
variable {w : Word} {why : Illegal}

theorem decodeOp0_eq_unknown :
    decodeOp0 false w = .unknown why ↔ why = .machineCall ∧ w ≠ 0x00E0 ∧ w ≠ 0x00EE := by
  simp only [decodeOp0, Bool.false_eq_true, if_false]
  split_ifs <;> simp_all [eq_comm (b := why)]

theorem decodeOp8_eq_unknown :
    decodeOp8 w = .unknown why ↔
      why = .aluSubop ∧ fieldN w ∈ [0x8, 0x9, 0xA, 0xB, 0xC, 0xD, 0xF] := by
  rcases nibble_cases (fieldN w) with hn | hn | hn | hn | hn | hn | hn | hn | hn | hn | hn | hn |
    hn | hn | hn | hn <;> simp [decodeOp8, hn, eq_comm]

theorem decodeOpE_eq_unknown :
    decodeOpE w = .unknown why ↔ why = .keySubop ∧ fieldNN w ∉ [0x9E, 0xA1] := by
  unfold decodeOpE
  split_ifs <;> simp_all [eq_comm (b := why)]

theorem decodeOpF_eq_unknown :
    decodeOpF w = .unknown why ↔ why = .miscSubop ∧
      fieldNN w ∉ [0x07, 0x0A, 0x15, 0x18, 0x1E, 0x29, 0x33, 0x55, 0x65] := by
  unfold decodeOpF
  split_ifs <;> simp_all [eq_comm (b := why)]

end

/-- Settles O5, op by op. -/
theorem illegalWordsByClass : Obligations.IllegalWordsByClass := by
  intro w
  rcases nibble_cases (fieldOp w) with hop | hop | hop | hop | hop | hop | hop | hop | hop | hop |
    hop | hop | hop | hop | hop | hop <;>
    simp [decodeWord, hop, decodeOp0_eq_unknown, decodeOp8_eq_unknown, decodeOpE_eq_unknown,
      decodeOpF_eq_unknown]
  -- ops 5 and 9 are left: the last nibble decides
  all_goals by_cases hn : fieldN w = 0#4 <;> simp [hn]


/-! ## The words of R98 -/

/-- Settles O6: the lenient decoder looks at fewer bits in ops 0, 5 and 9. -/
theorem lenientDecodeAddsOnlyItsWords : Obligations.LenientDecodeAddsOnlyItsWords := by
  refine ⟨by decide, fun x y n => ?_, fun w h59 h0 => ?_⟩
  · rw [append_formatXY, append_formatXY]
    refine ⟨by simp [decodeWord], by simp [decodeWord], fun hn => ?_⟩
    have hn : n ≠ 0#4 := hn
    exact ⟨by simp [decodeWord, hn], by simp [decodeWord, hn]⟩
  · obtain ⟨h5, h9⟩ : fieldOp w ≠ 0x5 ∧ fieldOp w ≠ 0x9 := by simpa using h59
    simp only [decodeWord, if_neg h5, if_neg h9]
    refine if_ctx_congr Iff.rfl (fun hop => ?_) fun _ => rfl
    obtain ⟨hE0, hEE⟩ : fieldNN w ≠ 0xE0 ∧ fieldNN w ≠ 0xEE := by
      simpa using fun h => h0 ⟨hop, h⟩
    have hcls : w ≠ 0x00E0 := by rintro rfl; exact hE0 rfl
    have hret : w ≠ 0x00EE := by rintro rfl; exact hEE rfl
    simp only [decodeOp0, if_neg hE0, if_neg hEE, if_neg hcls, if_neg hret, ite_self]

/-! ## The operand lines of R105 -/

/-- The range lemmas together. -/
theorem operandsInRange : ∀ i : Instr, Laws.OperandsInRange.Statement i
  | .cls => Laws.OperandsInRange.cls
  | .ret => Laws.OperandsInRange.ret
  | .jp nnn => Laws.OperandsInRange.jp nnn
  | .call nnn => Laws.OperandsInRange.call nnn
  | .seImm x nn => Laws.OperandsInRange.seImm x nn
  | .sneImm x nn => Laws.OperandsInRange.sneImm x nn
  | .seReg x y => Laws.OperandsInRange.seReg x y
  | .ldImm x nn => Laws.OperandsInRange.ldImm x nn
  | .addImm x nn => Laws.OperandsInRange.addImm x nn
  | .ldReg x y => Laws.OperandsInRange.ldReg x y
  | .orReg x y => Laws.OperandsInRange.orReg x y
  | .andReg x y => Laws.OperandsInRange.andReg x y
  | .xorReg x y => Laws.OperandsInRange.xorReg x y
  | .addReg x y => Laws.OperandsInRange.addReg x y
  | .subReg x y => Laws.OperandsInRange.subReg x y
  | .shrReg x y => Laws.OperandsInRange.shrReg x y
  | .subnReg x y => Laws.OperandsInRange.subnReg x y
  | .shlReg x y => Laws.OperandsInRange.shlReg x y
  | .sneReg x y => Laws.OperandsInRange.sneReg x y
  | .ldI nnn => Laws.OperandsInRange.ldI nnn
  | .jpV0 nnn => Laws.OperandsInRange.jpV0 nnn
  | .rnd x nn => Laws.OperandsInRange.rnd x nn
  | .drw x y n => Laws.OperandsInRange.drw x y n
  | .skp x => Laws.OperandsInRange.skp x
  | .sknp x => Laws.OperandsInRange.sknp x
  | .ldVxDt x => Laws.OperandsInRange.ldVxDt x
  | .ldVxK x => Laws.OperandsInRange.ldVxK x
  | .ldDtVx x => Laws.OperandsInRange.ldDtVx x
  | .ldStVx x => Laws.OperandsInRange.ldStVx x
  | .addIVx x => Laws.OperandsInRange.addIVx x
  | .ldFVx x => Laws.OperandsInRange.ldFVx x
  | .ldBVx x => Laws.OperandsInRange.ldBVx x
  | .ldMemVx x => Laws.OperandsInRange.ldMemVx x
  | .ldVxMem x => Laws.OperandsInRange.ldVxMem x

/-- An instruction's own mnemonic and operands stand for it (R105). -/
theorem lineOf_rowOf (i : Instr) : lineOf (rowOf i).mnemonic i.operands = some i := by
  cases i <;> simp [lineOf, rowOf, Instr.operands]

/-- Settles O7. -/
theorem assemblerAcceptsExactlyLinesInRange : Obligations.AssemblerAcceptsExactlyLinesInRange := by
  refine ⟨fun i => ?_, fun m o h => if_neg fun hwf => ?_⟩
  · exact (if_pos (operandsInRange i)).trans (lineOf_rowOf i)
  · simp only [RawOperands.wellFormed, Bool.and_eq_true, decide_eq_true_eq] at hwf
    omega

end Sys2Proof

namespace Sys2Proof.Machine

/-! ## What one write leaves -/

section
variable (s : State)

theorem State.setReg_keepsRegs (x : Reg) (b : Byte) : KeepsRegsBut [x] s (s.setReg x b) :=
  fun _ hr => s.reg_setReg_ne b (List.ne_of_not_mem_cons hr)

theorem State.setReg_onlyRegs (x : Reg) (b : Byte) : OnlyRegs [x] s (s.setReg x b) :=
  ⟨s.setReg_keepsRegs x b, fun _ _ => rfl, rfl⟩

theorem State.setPc_onlyPc (w : Word) : OnlyPc s (s.setPc w) :=
  ⟨fun _ _ => rfl, fun _ _ => rfl, rfl⟩

theorem State.setI_onlyIndex (w : Word) : OnlyIndex s (s.setI w) :=
  ⟨fun _ _ => rfl, fun _ _ => rfl, rfl⟩

theorem State.skipIf_pc (c : Bool) : (s.skipIf c).pc = if c then s.pc + 2 else s.pc := by
  cases c <;> rfl

theorem State.skipIf_onlyPc (c : Bool) : OnlyPc s (s.skipIf c) := by
  rw [State.skipIf_eq]
  exact s.setPc_onlyPc _

end

/-! ## Register loads and the random byte -/

/-- Settles O35. -/
theorem copyTouchesNoFlag : Obligations.CopyTouchesNoFlag := fun s x _ =>
  ⟨decodeWord_wordXY _ rfl, _, rfl, s.reg_setReg_self x _, s.setReg_onlyRegs x _⟩

/-- Settles O40. -/
theorem randomMasksTheHostsByte : Obligations.RandomMasksTheHostsByte := by
  intro s x nn r rs
  refine ⟨decodeWord_wordXK _ rfl,
    ⟨_, rfl, State.reg_setReg_self .., State.setReg_keepsRegs s.takeDraw x _, fun _ _ => rfl, rfl⟩,
    fun h => ⟨_, rfl, ?_, ?_⟩⟩
  · rw [State.reg_setReg_self, State.drawAnswer, h, List.headD_cons]
  · simp [State.takeDraw, h]

/-! ## Control transfer -/

theorem zextByte_toNat (b : Byte) : (zextByte b).toNat = b.toNat := by
  have := b.isLt
  simp only [zextByte, BitVec.toNat_setWidth]
  omega

/-- The sum of a 12-bit address and a byte does not wrap (R158). -/
theorem State.offsetTarget_toNat (s : State) (nnn : Addr) :
    (s.offsetTarget nnn).toNat = nnn.toNat + (s.reg V0).toNat := by
  have := nnn.isLt
  have := (s.reg V0).isLt
  rw [State.offsetTarget, BitVec.toNat_add, zextAddr_toNat, zextByte_toNat]
  omega

/-- Settles O42. -/
theorem jumpsGoToTheirTargets : Obligations.JumpsGoToTheirTargets := fun s nnn =>
  ⟨⟨decodeWord_encode _ (.jp nnn), _, rfl, zextAddr_toNat nnn, s.setPc_onlyPc _⟩,
    decodeWord_encode _ (.jpV0 nnn), _, rfl, s.offsetTarget_toNat nnn, s.setPc_onlyPc _⟩

/-- CALL with a full stack halts (R153, R315). -/
theorem exec_call_of_full {s : State} (nnn : Addr) (h : s.cfg.stackDepth ≤ s.sp) :
    exec (.call nnn) s = .next (s.raiseIns .stackOverflow .noInfo) := by
  rcases exec_call_cases nnn s with ⟨h', _⟩ | ⟨_, e⟩
  · exact absurd h (not_le.2 h')
  · exact e

/-- Settles O43. -/
theorem callPushesTheReturnAddressOrHalts : Obligations.CallPushesTheReturnAddressOrHalts := by
  intro s nnn
  refine ⟨decodeWord_encode _ (.call nnn), fun h => ?_, exec_call_of_full nnn⟩
  exact ⟨_, exec_call_of_lt nnn h, rfl, List.length_append, zextAddr_toNat nnn, fun _ _ => rfl,
    fun _ _ => rfl, rfl⟩

/-- Settles O45. -/
theorem immediateSkips : Obligations.ImmediateSkips := by
  intro s x nn
  refine ⟨⟨decodeWord_wordXK _ rfl, _, rfl, ?_, s.skipIf_onlyPc _⟩,
    decodeWord_wordXK _ rfl, _, rfl, ?_, s.skipIf_onlyPc _⟩ <;> simp [State.skipIf_pc]

/-- Settles O46. -/
theorem registerSkips : Obligations.RegisterSkips := by
  intro s x y
  refine ⟨⟨decodeWord_wordXY _ rfl, _, rfl, ?_, s.skipIf_onlyPc _⟩,
    decodeWord_wordXY _ rfl, _, rfl, ?_, s.skipIf_onlyPc _⟩ <;> simp [State.skipIf_pc]

/-! ## Keys and timers -/

theorem State.keyDown_lowNibble (s : State) (b : Byte) :
    s.keyDown (lowNibble b) = s.kd.getLsbD (b.toNat % 16) := by
  rw [State.keyDown, lowNibble_val]

/-- Settles O51. -/
theorem keySkipsTestTheLowNibble : Obligations.KeySkipsTestTheLowNibble := by
  intro s x
  refine ⟨⟨decodeWord_wordXK _ rfl, _, rfl, ?_, s.skipIf_onlyPc _⟩,
    decodeWord_wordXK _ rfl, _, rfl, ?_, s.skipIf_onlyPc _⟩ <;>
    rw [State.skipIf_pc, State.keyDown_lowNibble]
  cases s.kd.getLsbD ((s.reg x).toNat % 16) <;> rfl

/-- Settles O52. -/
theorem delayTimerIsReadAndWritten : Obligations.DelayTimerIsReadAndWritten := fun s x =>
  ⟨⟨decodeWord_wordXK _ rfl, _, rfl, s.reg_setReg_self x _, s.setReg_onlyRegs x _⟩,
    decodeWord_wordXK _ rfl, _, rfl, rfl, fun _ _ => rfl, fun _ _ => rfl, rfl⟩

/-- The key found is the lowest released one in range (R254). -/
theorem State.firstReleased_eq_some {s : State} {k : Key} (hk : k.val ≤ s.cfg.waitKeyMax)
    (hr : s.kr.getLsbD k.val = true) (hlow : ∀ j : Key, j < k → s.kr.getLsbD j.val = false) :
    s.firstReleased = some k := by
  refine List.find?_eq_some_iff_getElem.2 ⟨by simp [State.keyReleased, hk, hr], k.val, by simp,
    by simp, fun j hj => ?_⟩
  simp [State.keyReleased, hlow ⟨j, by omega⟩ hj]

theorem State.firstReleased_eq_none {s : State}
    (h : ∀ k : Key, k.val ≤ s.cfg.waitKeyMax → s.kr.getLsbD k.val = false) :
    s.firstReleased = none := by
  refine List.find?_eq_none.2 fun k _ => ?_
  simpa [State.keyReleased] using h k

/-- Settles O54, by the key that is found or not. -/
theorem waitForKeyTakesTheLowestOrRewinds : Obligations.WaitForKeyTakesTheLowestOrRewinds := by
  intro s x
  refine ⟨decodeWord_wordXK _ rfl, fun k hk hr hlow => ?_, fun h => ?_⟩
  · refine ⟨_, exec_ldVxK_of_some (State.firstReleased_eq_some hk hr hlow), ?_,
      s.setReg_onlyRegs x _⟩
    rw [State.reg_setReg_self, keyByte_toNat]
  · exact ⟨_, exec_ldVxK_of_none (State.firstReleased_eq_none h), rfl, s.setPc_onlyPc _⟩

/-! ## Index register -/

theorem glyphAddress_toNat (cfg : Config) (b : Byte) :
    (glyphAddress cfg b).toNat = (cfg.fontBase + 5 * (b.toNat % 16)) % 65536 := by
  rw [glyphAddress, BitVec.toNat_ofNat, lowNibble_val]

/-- Settles O56. -/
theorem indexInstructionsWriteOnlyTheIndex : Obligations.IndexInstructionsWriteOnlyTheIndex := by
  intro s x nnn
  refine ⟨⟨decodeWord_encode _ (.ldI nnn), _, rfl, zextAddr_toNat nnn, s.setI_onlyIndex _⟩,
    ⟨decodeWord_wordXK _ rfl, _, rfl, ?_, s.setI_onlyIndex _⟩,
    decodeWord_wordXK _ rfl, _, rfl, glyphAddress_toNat _ _, s.setI_onlyIndex _⟩
  rw [State.setI_i, BitVec.toNat_add, zextByte_toNat]

/-! ## The decimal digits of FX33 -/

@[simp] theorem length_bcdDigits (b : Byte) : (bcdDigits b).length = 3 := rfl

/-- Digit j of a byte, counted from the hundreds (R283). -/
theorem getElem_bcdDigits (b : Byte) (j : Nat) (h : j < (bcdDigits b).length) :
    (bcdDigits b)[j] = BitVec.ofNat 8 (b.toNat / 10 ^ (2 - j) % 10) := by
  have := b.isLt
  match j, h with
  | 0, _ =>
    refine congrArg (BitVec.ofNat 8) ?_
    omega
  | 1, _ => rfl
  | 2, _ => simp [bcdDigits]

/-- The first address that faults stops the stores: the bytes before it stand, and no other byte has
changed (R124, R283). -/
theorem storeBytes_halt (bs : List Byte) (a k : Nat) (s : State) (hlen : bs.length ≤ memSize)
    (hk : k < bs.length) (hn : s.memRead (a + k) = none)
    (hr : ∀ j < k, s.memRead (a + j) ≠ none) :
    ∃ m, storeBytes bs a s =
        .halt ({ s with mem := m }.raiseIns .memBounds (.address (a + k))) ∧
      (∀ j (hj : j < k), State.memRead { s with mem := m } (a + j) = some bs[j]) ∧
      ∀ A, (∀ j < k, reduceAddr s.cfg.addrPolicy (a + j) ≠ some A) →
        State.peek { s with mem := m } A = s.peek A := by
  have htake : (bs.take k).length = k := by simp; omega
  obtain ⟨m, he, hw, hf⟩ := storeBytes_spec (bs.take k) a s (by omega) (by rwa [htake])
  rw [htake] at hf
  refine ⟨m, ?_, fun j hj => ?_, hf⟩
  · have hstop : State.memWrite { s with mem := m } (a + k) bs[k] = none :=
      State.memWrite_eq_none.2 (State.memRead_eq_none (s := s).1 hn)
    rw [← List.take_append_drop k bs, storeBytes_append, he, htake, Flow.andThen_go,
      List.drop_eq_getElem_cons hk, storeBytes, hstop]
  · rw [hw j (by omega), List.getElem_take]

/-- Settles O57, by the stores of the three digits. -/
theorem bcdStoresThreeDigits : Obligations.BcdStoresThreeDigits := by
  intro s x
  have hlen : (bcdDigits (s.reg x)).length ≤ memSize := by simp [memSize]
  refine ⟨decodeWord_wordXK _ rfl, fun hr => ?_, fun k hk hn hr => ?_⟩
  · obtain ⟨m, he, hw, hf⟩ := storeBytes_spec (bcdDigits (s.reg x)) s.i.toNat s hlen hr
    have := (s.reg x).isLt
    refine ⟨_, _, _, _, congrArg (Host.Outcome.next ∘ Flow.state) he, hw 0 (by simp),
      hw 1 (by simp), hw 2 (by simp), ?_, ?_, ?_, ?_, hf, fun _ _ => rfl, rfl⟩ <;>
      simp only [bcdDigits, List.getElem_cons_zero, List.getElem_cons_succ, BitVec.toNat_ofNat] <;>
      omega
  · obtain ⟨m, he, hw, hf⟩ := storeBytes_halt (bcdDigits (s.reg x)) s.i.toNat k s hlen hk hn hr
    refine ⟨_, congrArg (Host.Outcome.next ∘ Flow.state) he, fun j hj => ?_, hf,
      fun _ _ => rfl, rfl⟩
    exact (hw j hj).trans (congrArg some (getElem_bcdDigits _ _ _))

/-! ## DRW -/

/-- DRW with a readable sprite draws it, then flushes and ends the batch (R222). -/
theorem exec_drw_of_readable {s : State} {x y : Reg} {n : BitVec 4} (h : s.spriteReadable y n) :
    ∃ f v, s.Drawn { s with fb := f, v := v } x y n.toNat ∧
      exec (.drw x y n) s =
        .next (State.flushAndEndBatch { s with fb := f, v := v }).state := by
  obtain ⟨f, v, he, hd⟩ := drawRows_drawn s x y n.toNat h
  exact ⟨f, v, hd, by rw [exec, execDrw, he]; rfl⟩

/-- Settles O48: the sprite is drawn, and the display's answer decides the rest. -/
theorem drawXorsTheClippedSprite : Obligations.DrawXorsTheClippedSprite := by
  intro s x y n hr
  obtain ⟨f, v, hd, he⟩ := exec_drw_of_readable (x := x) hr
  refine ⟨decodeWord_wordXY _ rfl, fun hok => ?_, fun hok => ?_⟩ <;>
    rcases State.flushAndEndBatch_cases { s with fb := f, v := v } with ⟨ha, e⟩ | ⟨ha, e⟩
  · rw [e] at he
    exact ⟨_, he, hd.congr rfl rfl, rfl, rfl, rfl, rfl, rfl, fun _ _ => rfl, rfl⟩
  · exact Bool.noConfusion (hok.symm.trans ha)
  · exact Bool.noConfusion (ha.symm.trans hok)
  · rw [e] at he
    exact ⟨_, he, hd.congr rfl rfl, rfl, fun _ _ => rfl, rfl⟩

end Sys2Proof.Machine
end

section
/-! PROOFS. The statements about the engine: the cycle that finds an illegal word or waits for a key,
the parts of a frame tick and their timer step, the length of a batch and of a tick, how a run ends;
and CLS, and DRW at an unreadable row. -/

namespace Sys2Proof

/-- CLS and DRW are the instructions that send the frame (R220). -/
theorem Instr.sendsFrame_iff {i : Instr} :
    i.sendsFrame = true ↔ i = .cls ∨ ∃ x y n, i = .drw x y n := by
  cases i <;> simp [Instr.sendsFrame]

end Sys2Proof

namespace Sys2Proof.Machine

/-! ## The step -/

/-- Settles O11. -/
theorem stoppedCoreTakesNoStep : Obligations.StoppedCoreTakesNoStep :=
  fun s => ⟨fun hh => by simp [step, hh], fun hh he => by simp [step, hh, he]⟩

/-- Settles O12, by the part of a frame tick that is next. -/
theorem runningCoreAlwaysSteps : Obligations.RunningCoreAlwaysSteps := by
  intro s hr
  cases hi : s.inTick with
  | false => exact ⟨_, step_beginTick hr hi⟩
  | true =>
    cases hb : s.batchOpen with
    | false => exact ⟨_, step_endTick hr hi hb⟩
    | true =>
      rw [step_inBatch ⟨hr, hi, hb⟩]
      exact runSlot_next s

/-- Settles O9. -/
theorem unknownWordHalts : Obligations.UnknownWordHalts := fun _ _ _ _ hs h0 h1 hd =>
  ⟨_, (step_inBatch hs).trans (runSlot_of_unknown (State.fetch_eq_word h0 h1) hd), rfl, rfl⟩

/-- FX0A with no key released is fetched again: its rewind of pc undoes the advance (R122, R254). -/
theorem exec_ldVxK_advance_of_none {s : State} (x : Reg) (w : Word) (h : s.firstReleased = none) :
    exec (.ldVxK x) (s.advance w) = .next { s with ins := ⟨s.pc, w⟩ } := by
  rw [exec_ldVxK_of_none (s := s.advance w) h]
  simp only [State.setPc, State.advance, BitVec.add_sub_cancel]

/-- Settles O55. -/
theorem waitingCostsOneSlot : Obligations.WaitingCostsOneSlot := fun _ x hs h0 h1 hk =>
  ⟨_, (step_inBatch hs).trans (runSlot_of_exec (State.fetch_eq_word h0 h1)
    (decodeWord_wordXK (nn := 0x0A#8) _ rfl)
    (exec_ldVxK_advance_of_none x _ (State.firstReleased_eq_none hk))), rfl, rfl, rfl⟩

/-! ## The timer step -/

section
variable {s : State}

/-- A timer tick writes the timers, the host's answers and the fault record only (R321, R317). -/
theorem State.timerTick_frame (s : State) :
    s.timerTick.state =
      { s with dt := countDown s.dt, st := countDown s.st, host := s.timerTick.state.host,
               halted := s.timerTick.state.halted, fault := s.timerTick.state.fault } := by
  rcases s.timerTick_cases with ⟨_, e⟩ | ⟨_, _, e⟩ | ⟨_, _, e⟩ <;> rw [e] <;> rfl

/-- A timer tick halts exactly where the tone falls and the audio collaborator fails (R317). -/
theorem State.timerTick_halted_iff (hs : s.halted = false) :
    s.timerTick.state.halted = true ↔ s.st = 1 ∧ s.audioAnswer = false := by
  rcases s.timerTick_cases with ⟨h, e⟩ | ⟨h, ha, e⟩ | ⟨h, ha, e⟩ <;> rw [e]
  · exact iff_of_false (Bool.eq_false_iff.1 hs) fun hf => h hf.1
  · simp [hs, ha]
  · simp [h, ha]

theorem State.timerTick_of_failure (hst : s.st = 1) (ha : s.audioAnswer = false) :
    s.timerTick = .halt ({ s with dt := countDown s.dt, st := 0 }.takeAudio.raise
      .hostIo .audio (Config.freeTimerFaultPc s.host.asked) 0) := by
  rcases s.timerTick_cases with ⟨h, _⟩ | ⟨_, h, _⟩ | ⟨_, _, e⟩
  · exact absurd hst h
  · exact Bool.noConfusion (ha.symm.trans h)
  · rw [e, hst]
    rfl

theorem State.beginTick_of_beforeBatch (hp : s.cfg.timerPhase = .beforeBatch) :
    s.beginTick =
      ({ s with slot := 0, batchEnd := false, inTick := true } : State).timerTick.state := by
  simp [State.beginTick, State.timerAt, hp]

/-- An audio failure at the timer step after the batch leaves no Poll to follow (R130). -/
theorem State.endTick_of_failure (hp : s.cfg.timerPhase = .afterBatch) (hst : s.st = 1)
    (ha : s.audioAnswer = false) : s.endTick = s.timerTick.state := by
  simp [State.endTick, State.timerAt, hp, State.timerTick_of_failure hst ha]

end

/-- Settles O13, by the timer phase. -/
theorem tickBeginsABatch : Obligations.TickBeginsABatch := by
  intro s hr hi
  refine ⟨_, step_beginTick hr hi, ?_⟩
  rcases s.beginTick_cases with ⟨hp, e⟩ | ⟨hp, e⟩ <;> rw [e, hp]
  · exact ⟨rfl, rfl, rfl, fun _ _ => rfl, fun _ _ => rfl, fun _ => rfl, nofun⟩
  · have hh := State.timerTick_halted_iff
      (s := { s with slot := 0, batchEnd := false, inTick := true }) hr.1
    rw [State.timerTick_frame]
    exact ⟨rfl, rfl, rfl, fun _ _ => rfl, fun _ _ => rfl, nofun,
      fun _ => ⟨countDown_toNat _, countDown_toNat _, hh, rfl⟩⟩

/-- Settles O15: before the batch and after it, the step is the timer step that fails. -/
theorem audioFailureAtTheTimerStepHalts : Obligations.AudioFailureAtTheTimerStepHalts := by
  intro s hr hst ha
  refine ⟨fun hp hi hb => ?_, fun hp hi => ?_⟩
  · rw [step_endTick hr hi hb, State.endTick_of_failure hp hst ha,
      State.timerTick_of_failure hst ha]
    exact ⟨_, _, rfl, rfl, rfl, rfl, rfl, countDown_toNat _, fun _ _ => rfl, fun _ _ => rfl, rfl⟩
  · rw [step_beginTick hr hi, State.beginTick_of_beforeBatch hp, State.timerTick_of_failure
      (s := { s with slot := 0, batchEnd := false, inTick := true }) hst ha]
    exact ⟨_, _, rfl, rfl, rfl, rfl, rfl, countDown_toNat _, fun _ _ => rfl, fun _ _ => rfl, rfl⟩

/-! ## The end of a tick -/

/-- Where no audio failure comes, a tick ends with the Poll, from a state that differs in the timers
and the audio answers taken alone (R130). -/
theorem State.endTick_of_answered {s : State}
    (hok : s.cfg.timerPhase = .afterBatch → s.st = 1 → s.audioAnswer = true) :
    ∃ u : State, s.endTick = u.poll.closeTick ∧
      u = { s with dt := u.dt, st := u.st, host := u.host } ∧ u.host.polls = s.host.polls ∧
      (s.cfg.timerPhase = .afterBatch → u.dt = countDown s.dt ∧ u.st = countDown s.st) ∧
      (s.cfg.timerPhase = .beforeBatch → u.dt = s.dt ∧ u.st = s.st) := by
  rcases s.endTick_cases with ⟨hp, e⟩ | ⟨hp, _, e⟩ | ⟨hp, _, _, e⟩ | ⟨hp, hst, ha, _⟩
  · exact ⟨_, e, rfl, rfl, fun h => (nomatch hp.symm.trans h), fun _ => ⟨rfl, rfl⟩⟩
  · exact ⟨_, e, rfl, rfl, fun _ => ⟨rfl, rfl⟩, fun h => (nomatch hp.symm.trans h)⟩
  · exact ⟨_, e, rfl, rfl, fun _ => ⟨rfl, rfl⟩, fun h => (nomatch hp.symm.trans h)⟩
  · exact Bool.noConfusion (ha.symm.trans (hok hp hst))

/-- Settles O14: the report is the one the Poll takes. -/
theorem tickEndCountsDownPollsAndMayEndTheRun :
    Obligations.TickEndCountsDownPollsAndMayEndTheRun := by
  intro s hr hi hb hok
  obtain ⟨u, e, hu, hq, hafter, hbefore⟩ := State.endTick_of_answered hok
  have hquit : u.quit = s.quit := (congrArg State.quit hu :)
  refine ⟨_, u.pollAnswer, (step_endTick hr hi hb).trans (congrArg _ e), fun p ps hps => ?_, rfl,
    rfl, congrArg (· || _) hquit, rfl, rfl, fun h => ?_, hbefore, fun r _ => ?_, fun a _ => ?_, ?_⟩
  · simp [State.pollAnswer, State.poll, hq, hps]
  · obtain ⟨hdt, hst⟩ := hafter h
    exact ⟨(congrArg _ hdt).trans (countDown_toNat _), (congrArg _ hst).trans (countDown_toNat _)⟩
  · exact State.reg_congr (congrArg State.v hu :) r
  · exact State.peek_congr (congrArg State.mem hu :) (congrArg State.cfg hu :) a
  · rw [hu]
    rfl

/-! ## The end of a batch -/

/-- Of CLS and DRW, one that completes ends the batch; one that halts leaves it open (R129). -/
theorem exec_batchEnd_of_sendsFrame {i : Instr} {s t : State} (h : exec i s = .next t)
    (hi : i.sendsFrame = true) :
    t.batchEnd = true ∨ (t.halted = true ∧ t.batchEnd = s.batchEnd) := by
  cases i
  case cls =>
    rcases exec_cls_cases s with ⟨_, e⟩ | ⟨_, e⟩ <;> cases e.symm.trans h
    · exact .inl rfl
    · exact .inr ⟨rfl, rfl⟩
  case drw x y n =>
    obtain ⟨_, _, _, ⟨_, e⟩ | ⟨_, e⟩ | ⟨_, _, e⟩⟩ := exec_drw_cases x y n s <;>
      cases e.symm.trans h
    · exact .inl rfl
    · exact .inr ⟨rfl, rfl⟩
    · exact .inr ⟨rfl, rfl⟩
  all_goals cases hi

theorem exec_batchEnd {i : Instr} {s t : State} (h : exec i s = .next t)
    (hi : i.sendsFrame = false) : t.batchEnd = s.batchEnd := by
  simpa [hi] using congrArg State.batchEnd (exec_frame h)

/-- The step after the batch keeps pc and the latched word, and leaves the tick or halts (R130). -/
theorem State.endTick_leaves (s : State) :
    s.endTick.pc = s.pc ∧ s.endTick.ins = s.ins ∧
      (s.endTick.inTick = false ∨ s.endTick.halted = true) := by
  rcases s.endTick_cases with ⟨_, e⟩ | ⟨_, _, e⟩ | ⟨_, _, _, e⟩ | ⟨_, _, _, e⟩ <;> rw [e]
  · exact ⟨rfl, rfl, .inl rfl⟩
  · exact ⟨rfl, rfl, .inl rfl⟩
  · exact ⟨rfl, rfl, .inl rfl⟩
  · exact ⟨rfl, rfl, .inr rfl⟩

theorem State.batchOpen_of_batchEnd {s : State} (h : s.batchEnd = true) : s.batchOpen = false := by
  simp [State.batchOpen, h]

/-- Settles O16. -/
theorem onlyClearAndDrawEndABatch : Obligations.OnlyClearAndDrawEndABatch := by
  refine ⟨fun i s t h => ?_, fun i s t hi h hh => ?_, fun s t hr hi he h => ?_⟩
  · cases hi : i.sendsFrame with
    | false => exact .inl (exec_batchEnd h hi)
    | true =>
      rcases exec_batchEnd_of_sendsFrame h hi with hb | ⟨_, hb⟩
      · exact .inr ⟨hb, Instr.sendsFrame_iff.1 hi⟩
      · exact .inl hb
  · rcases exec_batchEnd_of_sendsFrame h (Instr.sendsFrame_iff.2 hi) with hb | ⟨hb, _⟩
    · exact hb
    · exact Bool.noConfusion (hh.symm.trans hb)
  · cases (step_endTick hr hi (State.batchOpen_of_batchEnd he)).symm.trans h
    exact s.endTick_leaves

/-- An open batch has a slot left (R127). -/
theorem State.slot_lt_of_batchOpen {s : State} (h : s.batchOpen = true) : s.slot < s.cfg.ipf := by
  simp only [State.batchOpen, Bool.and_eq_true, decide_eq_true_eq] at h
  exact h.1

/-- Within a tick, at most as many cycles as slots are left lead to the end of the batch, or to a
fault (R127, R130): each cycle counts one. -/
theorem steps_to_batch_end (k : Nat) (s : State) (hk : s.cfg.ipf - s.slot ≤ k)
    (he : s.ended = false) (hi : s.inTick = true) :
    ∃ n t, n ≤ k ∧ Steps n s t ∧ t.ended = false ∧ t.inTick = true ∧
      (t.halted = true ∨ t.batchOpen = false) := by
  induction k generalizing s with
  | zero =>
    have hb : ¬ s.batchOpen = true := fun hb => by
      have := State.slot_lt_of_batchOpen hb
      omega
    exact ⟨0, s, le_rfl, .zero s, he, hi, .inr (Bool.eq_false_iff.2 hb)⟩
  | succ k ih =>
    by_cases hr : s.halted = false ∧ s.batchOpen = true
    · obtain ⟨hh, hb⟩ := hr
      obtain ⟨u, hu⟩ := runSlot_next s
      have hlt := State.slot_lt_of_batchOpen hb
      obtain ⟨n, t, hn, hst, ht⟩ := ih u
        (by rw [runSlot_cfg hu, runSlot_slot hu]; omega)
        ((runSlot_ended hu).trans he) ((runSlot_inTick hu).trans hi)
      exact ⟨n + 1, t, Nat.succ_le_succ hn,
        hst.cons ((step_inBatch ⟨⟨hh, he⟩, hi, hb⟩).trans hu), ht⟩
    · refine ⟨0, s, Nat.zero_le _, .zero s, he, hi, ?_⟩
      rwa [Decidable.not_and_iff_or_not, Bool.not_eq_false, Bool.not_eq_true] at hr

/-- Settles O17. -/
theorem batchHasAtMostIpfCycles : Obligations.BatchHasAtMostIpfCycles := by
  intro s ⟨⟨_, he⟩, hi, _⟩
  obtain ⟨n, t, hn, hst, _, _, hout⟩ := steps_to_batch_end _ s le_rfl he hi
  refine ⟨n, t, hn, hst, fun ⟨⟨hh, _⟩, _, hb⟩ => ?_⟩
  rcases hout with h | h
  · exact Bool.noConfusion (hh.symm.trans h)
  · exact Bool.noConfusion (hb.symm.trans h)

/-- Settles O18: the step after the batch leaves the tick or halts. -/
theorem everyTickCompletes : Obligations.EveryTickCompletes := by
  intro s ⟨_, he⟩ hi
  obtain ⟨n, t, hn, hst, hte, hti, hout⟩ := steps_to_batch_end _ s le_rfl he hi
  cases hh : t.halted with
  | true => exact ⟨n, t, Nat.le_succ_of_le hn, hst, .inr hh⟩
  | false =>
    have hb : t.batchOpen = false := hout.resolve_left (Bool.eq_false_iff.1 hh)
    obtain ⟨_, _, hleaves⟩ := t.endTick_leaves
    exact ⟨n + 1, t.endTick, Nat.succ_le_succ hn, .succ hst (step_endTick ⟨hh, hte⟩ hti hb),
      hleaves⟩

/-! ## What an instruction does to the timers, and how it halts -/

/-- DT after an instruction: only FX15 sets it (R255, R131). -/
def State.delayAfter (s : State) : Instr → Byte
  | .ldDtVx x => s.reg x
  | _ => s.dt

/-- ST after an instruction: only FX18 sets it (R256, R131). -/
def State.soundAfter (s : State) : Instr → Byte
  | .ldStVx x => s.reg x
  | _ => s.st

/-- An instruction either runs to its end, or raises one fault of its own (R124, R312); DT and ST
are written by FX15 and FX18 alone. -/
theorem exec_completes_or_raises {i : Instr} {s t : State} (h : exec i s = .next t) :
    t = { t with dt := s.delayAfter i, st := s.soundAfter i, halted := s.halted,
                 fault := s.fault } ∨
      ∃ k f, k ≠ .noFault ∧
        t = { t with dt := s.delayAfter i, st := s.soundAfter i, halted := true,
                     fault := s.insFault k f } := by
  cases i
  case cls =>
    rcases exec_cls_cases s with ⟨_, e⟩ | ⟨_, e⟩ <;> cases e.symm.trans h
    · exact .inl rfl
    · exact .inr ⟨.hostIo, .display, by decide, rfl⟩
  case drw x y n =>
    obtain ⟨_, _, _, ⟨_, e⟩ | ⟨_, e⟩ | ⟨a, _, e⟩⟩ := exec_drw_cases x y n s <;>
      cases e.symm.trans h
    · exact .inl rfl
    · exact .inr ⟨.hostIo, .display, by decide, rfl⟩
    · exact .inr ⟨.memBounds, .address a, by decide, rfl⟩
  case ret =>
    rcases exec_ret_cases s with ⟨_, _, _, e⟩ | ⟨_, e⟩ <;> cases e.symm.trans h
    · exact .inl rfl
    · exact .inr ⟨.stackUnderflow, .noInfo, by decide, rfl⟩
  case call nnn =>
    rcases exec_call_cases nnn s with ⟨_, e⟩ | ⟨_, e⟩ <;> cases e.symm.trans h
    · exact .inl rfl
    · exact .inr ⟨.stackOverflow, .noInfo, by decide, rfl⟩
  case ldVxK x =>
    rcases exec_ldVxK_cases x s with ⟨_, _, e⟩ | ⟨_, e⟩ <;> cases e.symm.trans h <;>
      exact .inl rfl
  case ldStVx x =>
    rcases exec_ldStVx_cases x s with ⟨_, e⟩ | ⟨_, _, e⟩ | ⟨_, _, e⟩ <;> cases e.symm.trans h
    · exact .inl rfl
    · exact .inl rfl
    · exact .inr ⟨.hostIo, .audio, by decide, rfl⟩
  case ldBVx x =>
    obtain ⟨_, _, e | ⟨a, _, e⟩⟩ := exec_ldBVx_cases x s <;> cases e.symm.trans h
    · exact .inl rfl
    · exact .inr ⟨.memBounds, .address a, by decide, rfl⟩
  case ldMemVx x =>
    obtain ⟨_, _, _, e | ⟨a, _, e⟩⟩ := exec_ldMemVx_cases x s <;> cases e.symm.trans h
    · exact .inl rfl
    · exact .inr ⟨.memBounds, .address a, by decide, rfl⟩
  case ldVxMem x =>
    obtain ⟨_, _, _, e | ⟨a, _, e⟩⟩ := exec_ldVxMem_cases x s <;> cases e.symm.trans h
    · exact .inl rfl
    · exact .inr ⟨.memBounds, .address a, by decide, rfl⟩
  case seImm | sneImm | seReg | sneReg | skp | sknp =>
    cases h
    rw [State.skipIf_eq]
    exact .inl rfl
  all_goals
    cases h
    exact .inl rfl

section
variable {i : Instr} {s t : State}

theorem exec_dt (h : exec i s = .next t) : t.dt = s.delayAfter i := by
  rcases exec_completes_or_raises h with e | ⟨_, _, _, e⟩ <;> exact (congrArg State.dt e :)

theorem exec_st (h : exec i s = .next t) : t.st = s.soundAfter i := by
  rcases exec_completes_or_raises h with e | ⟨_, _, _, e⟩ <;> exact (congrArg State.st e :)

/-- An instruction that halts the CORE leaves a fault record of some kind (R312). -/
theorem exec_fault_of_halted (h : exec i s = .next t) (hs : s.halted = false)
    (ht : t.halted = true) : t.fault.kind ≠ .noFault := by
  rcases exec_completes_or_raises h with e | ⟨k, f, hk, e⟩
  · exact Bool.noConfusion (hs.symm.trans ((congrArg State.halted e).symm.trans ht))
  · rw [e]
    exact hk

theorem exec_keys (h : exec i s = .next t) (hi : i.sendsFrame = false) :
    t.kd = s.kd ∧ t.kr = s.kr := by
  have e := exec_frame h
  simp only [hi] at e
  exact ⟨(congrArg State.kd e :), (congrArg State.kr e :)⟩

end

/-- Settles O28. -/
theorem timersAndKeysAreConstantInABatch : Obligations.TimersAndKeysAreConstantInABatch := by
  intro i s t h
  refine ⟨fun hi => ?_, fun hi => ?_, fun hcls hdrw => ?_⟩
  · rw [exec_dt h]
    cases i
    case ldDtVx x => exact absurd rfl (hi x)
    all_goals rfl
  · rw [exec_st h]
    cases i
    case ldStVx x => exact absurd rfl (hi x)
    all_goals rfl
  · have hi := Instr.sendsFrame_eq_false hcls hdrw
    obtain ⟨hkd, hkr⟩ := exec_keys h hi
    exact ⟨hkd, hkr, exec_quit h hi⟩

/-! ## The end of a run -/

/-- The fault record of a run that ended by FAULT (R134, R311). -/
theorem FaultKind.code_of_ne_noFault {k : FaultKind} (h : k ≠ .noFault) :
    (k, k.code) ∈ [(FaultKind.unknownOpcode, 1#3), (.stackUnderflow, 2#3), (.stackOverflow, 3#3),
      (.memBounds, 4#3), (.hostIo, 5#3)] := by
  cases k
  case noFault => exact absurd rfl h
  all_goals decide

theorem runSlot_fault_of_halted {s t : State} (h : runSlot s = .next t) (hs : s.halted = false)
    (ht : t.halted = true) : t.fault.kind ≠ .noFault := by
  obtain ⟨u, rfl, ⟨_, _, rfl⟩ | ⟨_, _, _, _, rfl⟩ | ⟨w, i, _, _, hi⟩⟩ := runSlot_cases h
  · exact FaultKind.noConfusion
  · exact FaultKind.noConfusion
  · exact exec_fault_of_halted (s := s.advance w) (t := u) hi hs ht

theorem State.timerTick_fault_of_halted {s : State} (hs : s.halted = false)
    (ht : s.timerTick.state.halted = true) : s.timerTick.state.fault.kind ≠ .noFault := by
  obtain ⟨hst, ha⟩ := (State.timerTick_halted_iff hs).1 ht
  rw [State.timerTick_of_failure hst ha]
  exact FaultKind.noConfusion

theorem State.beginTick_fault_of_halted {s : State} (hs : s.halted = false)
    (ht : s.beginTick.halted = true) : s.beginTick.fault.kind ≠ .noFault := by
  rcases s.beginTick_cases with ⟨_, e⟩ | ⟨_, e⟩ <;> rw [e] at ht ⊢
  · exact Bool.noConfusion (hs.symm.trans ht)
  · exact State.timerTick_fault_of_halted hs ht

theorem State.beginTick_ended (s : State) : s.beginTick.ended = s.ended := by
  rcases s.beginTick_cases with ⟨_, e⟩ | ⟨_, e⟩ <;> rw [e]
  rw [State.timerTick_frame]

/-- A tick ends by the end of a run if quit is set, or by an audio failure (R133, R317). -/
theorem State.endTick_quits_or_fails {s : State} (hs : s.halted = false) (he : s.ended = false) :
    (s.endTick.halted = false ∧ s.endTick.inTick = false ∧ s.endTick.ended = s.endTick.quit) ∨
      (s.endTick.halted = true ∧ s.endTick.ended = false ∧
        s.endTick.fault.kind ≠ .noFault) := by
  rcases s.endTick_cases with ⟨_, e⟩ | ⟨_, _, e⟩ | ⟨_, _, _, e⟩ | ⟨_, _, _, e⟩ <;> rw [e]
  · exact .inl ⟨hs, rfl, rfl⟩
  · exact .inl ⟨hs, rfl, rfl⟩
  · exact .inl ⟨hs, rfl, rfl⟩
  · exact .inr ⟨rfl, he, FaultKind.noConfusion⟩

theorem State.not_running_iff {s : State} : ¬ s.running ↔ s.halted = true ∨ s.ended = true := by
  rw [State.running, Decidable.not_and_iff_or_not, Bool.not_eq_false, Bool.not_eq_false]

/-- A step that stops the CORE halts it with a fault record, or is the end of a tick with quit set
(R134). -/
theorem step_stops {s t : State} (h : step s = .next t) (ht : ¬ t.running) :
    (t.halted = true ∧ t.ended = false ∧ t.fault.kind ≠ .noFault) ∨
      (t.halted = false ∧ t.ended = true ∧ t.quit = true ∧ s.inTick = true ∧
        s.batchOpen = false ∧ t.inTick = false) := by
  rw [State.not_running_iff] at ht
  obtain ⟨⟨hh, he⟩, ⟨_, rfl⟩ | ⟨hi, hb, rfl⟩ | ⟨_, _, hc⟩⟩ := step_cases h
  · have hte := s.beginTick_ended.trans he
    have hth := ht.resolve_right (Bool.eq_false_iff.1 hte)
    exact .inl ⟨hth, hte, State.beginTick_fault_of_halted hh hth⟩
  · rcases State.endTick_quits_or_fails hh he with ⟨hth, hti, hq⟩ | hfail
    · have hte := ht.resolve_left (Bool.eq_false_iff.1 hth)
      exact .inr ⟨hth, hte, hq.symm.trans hte, hi, hb, hti⟩
    · exact .inl hfail
  · have hte := (runSlot_ended hc).trans he
    have hth := ht.resolve_right (Bool.eq_false_iff.1 hte)
    exact .inl ⟨hth, hte, runSlot_fault_of_halted hc hh hth⟩

/-- Settles O19. -/
theorem runEndsByQuitOrFault : Obligations.RunEndsByQuitOrFault := by
  intro s t _ h ht
  rcases step_stops h ht with ⟨hh, he, hk⟩ | ⟨hh, he, hq, hi, hb, hti⟩
  · exact .inl ⟨hh, he, by simp [State.runEnd, hh], FaultKind.code_of_ne_noFault hk⟩
  · exact .inr ⟨hh, he, hq, hi, hb, hti, by simp [State.runEnd, hh, he]⟩

/-! ## CLS, and DRW at an unreadable row -/

theorem State.pixel_of_blankFrame {s : State} (h : s.fb = blankFrame) (r : RowIx) (c : ColIx) :
    s.pixel r c = false := by
  simp [State.pixel, h, blankFrame]

/-- Settles O47, by the display's answer. -/
theorem clearScreenClearsAndFlushes : Obligations.ClearScreenClearsAndFlushes := by
  intro s
  refine ⟨decodeWord_encode _ .cls, fun hok => ?_, fun hok => ?_⟩ <;>
    rcases exec_cls_cases s with ⟨ha, e⟩ | ⟨ha, e⟩
  · exact ⟨_, e, State.pixel_of_blankFrame rfl, rfl, rfl, rfl, rfl, rfl, fun _ _ => rfl,
      fun _ _ => rfl, rfl⟩
  · exact Bool.noConfusion (hok.symm.trans ha)
  · exact Bool.noConfusion (ha.symm.trans hok)
  · exact ⟨_, e, State.pixel_of_blankFrame rfl, rfl, fun _ _ => rfl, fun _ _ => rfl, rfl⟩

/-- The scan stops at a row above the bottom edge whose byte cannot be read (R124, R222). -/
theorem drawRows_of_unreadable {s : State} {ox oy i : Nat} (m : Nat) (h : oy + i < 32)
    (hn : s.memRead (s.i.toNat + i) = none) :
    drawRows ox oy (m + 1) i s = .halt (s.raiseIns .memBounds (.address (s.i.toNat + i))) := by
  rw [drawRows, dif_pos h]
  simp only [hn]

/-- Settles O49: the scan of n rows is that of the k readable ones and then of the rest. -/
theorem drawStopsAtAnUnreadableRow : Obligations.DrawStopsAtAnUnreadableRow := by
  intro s x y n k hk hrow hn hr
  obtain ⟨f, v, he, hd⟩ := drawRows_drawn s x y k fun j hj _ => hr j hj
  obtain ⟨m, hm⟩ := Nat.exists_eq_add_of_lt hk
  have hexec : exec (.drw x y n) s =
      .next (State.raiseIns { s with fb := f, v := v } .memBounds (.address (s.i.toNat + k))) := by
    rw [exec, execDrw, hm, Nat.add_assoc, drawRows_add, he, Flow.andThen_go, Nat.zero_add,
      drawRows_of_unreadable (s := { s with fb := f, v := v }) m hrow hn]
    rfl
  exact ⟨_, hexec, hd.congr rfl rfl, fun _ _ => rfl, rfl⟩

end Sys2Proof.Machine
end

section
/-! PROOFS. RET: the return address taken from the top of the stack, or the halt with an empty one. -/

namespace Sys2Proof.Machine

/-- Settles O41, by whether the stack has a top. -/
theorem returnPopsOrHalts : Obligations.ReturnPopsOrHalts := by
  intro s
  refine ⟨decodeWord_encode _ .ret, fun st w h => ?_, exec_ret_of_empty⟩
  exact ⟨_, exec_ret_of_stack h, rfl, rfl, fun _ _ => rfl, fun _ _ => rfl, rfl⟩

end Sys2Proof.Machine
end

section
/-! PROOFS. The ALU's instructions that compute no flag: LD and ADD of a byte write Vx alone; OR,
AND and XOR zero VF. -/

namespace Sys2Proof.Machine

/-- Settles O34: both instructions write one register, and the byte sum wraps at 256. -/
theorem immediateLoadAndAddTouchNoFlag : Obligations.ImmediateLoadAndAddTouchNoFlag := by
  intro s x nn
  have hsum : ((s.setReg x (s.reg x + nn)).reg x).toNat = ((s.reg x).toNat + nn.toNat) % 256 := by
    rw [State.reg_setReg_self, BitVec.toNat_add]
  exact ⟨⟨decodeWord_wordXK _ rfl, _, rfl, s.reg_setReg_self x _, s.setReg_onlyRegs x _⟩,
    decodeWord_wordXK _ rfl, _, rfl, hsum, s.setReg_onlyRegs x _⟩

/-- What an instruction leaves that writes the result `b` to Vx and then zeroes VF (R185). -/
theorem exec_zeroes_flag {i : Instr} {s : State} {x : Reg} {b : Byte}
    (h : exec i s = .next (s.setRegThenFlag x b 0)) :
    ∃ t, exec i s = .next t ∧ t.reg VF = 0 ∧ (x ≠ VF → t.reg x = b) ∧ OnlyRegs [x, VF] s t :=
  ⟨_, h, s.reg_setRegThenFlag_flag x b 0, s.reg_setRegThenFlag_dest b 0,
    s.setRegThenFlag_onlyRegs x b 0⟩

/-- Settles O36: the three differ in the result alone. -/
theorem logicZeroesTheFlag : Obligations.LogicZeroesTheFlag := fun _ _ _ =>
  ⟨⟨decodeWord_wordXY _ rfl, exec_zeroes_flag rfl⟩, ⟨decodeWord_wordXY _ rfl, exec_zeroes_flag rfl⟩,
    decodeWord_wordXY _ rfl, exec_zeroes_flag rfl⟩

end Sys2Proof.Machine
end

section
/-! PROOFS. DRW of one sprite at one origin, twice: the second draw finds the sprite of the first
and undoes its XOR. -/

namespace Sys2Proof.Machine

section
variable {s t u : State} {x y : Reg} {n : Nat}

/-- A sprite's picture depends on its origin and on the bytes from `I` on (R222, R227). -/
theorem State.spriteBit_congr (hx : t.reg x = s.reg x) (hy : t.reg y = s.reg y) (hi : t.i = s.i)
    (hm : ∀ a, t.memRead a = s.memRead a) (r : RowIx) (c : ColIx) :
    t.spriteBit x y n r c = s.spriteBit x y n r c := by
  simp only [State.spriteBit, State.spriteByte, hx, hy, hi, hm]

/-- The second XOR with the same picture undoes the first (R225). -/
theorem State.Drawn.pixel_twice (hst : s.Drawn t x y n) (htu : t.Drawn u x y n)
    (hb : ∀ r c, t.spriteBit x y n r c = s.spriteBit x y n r c) (r : RowIx) (c : ColIx) :
    u.pixel r c = s.pixel r c := by
  obtain ⟨hfirst, -⟩ := hst
  obtain ⟨hsecond, -⟩ := htu
  rw [hsecond, hfirst, hb, Bool.xor_assoc, Bool.xor_self, Bool.xor_false]

/-- Between the draws, a pixel under a set bit of the sprite is set exactly if it was clear before:
so the second draw meets a set pixel where the first met a clear one (R225). -/
theorem State.Drawn.flag_twice (hst : s.Drawn t x y n) (htu : t.Drawn u x y n)
    (hb : ∀ r c, t.spriteBit x y n r c = s.spriteBit x y n r c) :
    u.reg VF = 1 ↔ ∃ r c, s.spriteBit x y n r c = true ∧ s.pixel r c = false := by
  obtain ⟨hpixel, -⟩ := hst
  obtain ⟨-, hflag, -⟩ := htu
  refine hflag.trans (exists_congr fun r => exists_congr fun c => ?_)
  rw [hpixel, hb]
  exact and_congr_right fun hbit => by simp [hbit]

/-- Where VF is 0 after a draw, every set bit of the sprite stood on a clear pixel (R225). -/
theorem State.Drawn.pixel_of_flag_zero (hst : s.Drawn t x y n) (h0 : t.reg VF = 0) (r : RowIx)
    (c : ColIx) (hbit : s.spriteBit x y n r c = true) : s.pixel r c = false := by
  obtain ⟨-, hflag, -⟩ := hst
  have hne : t.reg VF ≠ 1 := by rw [h0]; decide
  exact Bool.eq_false_iff.2 fun hset => hne (hflag.2 ⟨r, c, hbit, hset⟩)

end

/-- A DRW that reads its sprite and whose frame the display takes draws it, and leaves `I`, memory
and `halted` as they were (R222). -/
theorem exec_drw_drawn {s t : State} {x y : Reg} {n : BitVec 4} (hr : s.spriteReadable y n)
    (hok : s.flushAnswer.ok = true) (h : exec (.drw x y n) s = .next t) :
    s.Drawn t x y n.toNat ∧ t.i = s.i ∧ (∀ a, t.memRead a = s.memRead a) ∧
      t.halted = s.halted := by
  obtain ⟨-, hflushed, -⟩ := drawXorsTheClippedSprite s x y n hr
  obtain ⟨t', he, hd, -, -, -, -, -, -, hframe⟩ := hflushed hok
  obtain rfl : t' = t := Host.Outcome.next.inj (he.symm.trans h)
  exact ⟨hd, by rw [hframe], State.memRead_congr (by rw [hframe]) (by rw [hframe]), by rw [hframe]⟩

/-- Settles O50: the first draw leaves the sprite's origin, `I` and memory, so the second draws the
same picture. -/
theorem drawingTwiceRestoresTheFrame : Obligations.DrawingTwiceRestoresTheFrame := by
  intro s t u x y n hrs hx hy hoks hokt hs ht
  obtain ⟨hst, hi, hm, hhalt⟩ := exec_drw_drawn hrs hoks hs
  have ⟨_, _, _, hregs⟩ := hst
  have hxt : t.reg x = s.reg x := hregs x (by simpa using hx)
  have hyt : t.reg y = s.reg y := hregs y (by simpa using hy)
  have hrt : t.spriteReadable y n := by
    simpa only [State.spriteReadable, hyt, hi, hm] using hrs
  obtain ⟨htu, -, -, hhalt'⟩ := exec_drw_drawn hrt hokt ht
  have hb := State.spriteBit_congr (n := n.toNat) hxt hyt hi hm
  have hflag := hst.flag_twice htu hb
  refine ⟨hst.pixel_twice htu hb, hhalt'.trans hhalt, hflag, fun h0 => hflag.trans ?_⟩
  exact exists_congr fun r => exists_congr fun c =>
    and_iff_left_of_imp (hst.pixel_of_flag_zero h0 r c)

end Sys2Proof.Machine
end

section
/-! PROOFS. FX55 and FX65: the registers below a bound stored or loaded, the halt at the first
address that faults, and the load that gives back what was dumped. -/

namespace Sys2Proof.Machine

/-! ## The registers below a bound -/

theorem length_take_finRange {n : Nat} (h : n ≤ 16) : ((List.finRange 16).take n).length = n := by
  simp [h]

theorem mem_take_finRange {n : Nat} {r : Reg} : r ∈ (List.finRange 16).take n ↔ r.val < n := by
  simp [List.mem_take_iff_getElem, Fin.ext_iff]

theorem nodup_take_finRange (n : Nat) : ((List.finRange 16).take n).Nodup :=
  (List.nodup_finRange 16).sublist (List.take_sublist _ _)

section
variable {s : State} {n : Nat} {x k : Reg}

/-- Addresses that can be read for the registers below n, counted by position in the list, as the
loops' specifications count them. -/
theorem readable_take_finRange (h : n ≤ 16)
    (hr : ∀ j : Reg, j.val < n → s.memRead (s.regAddr j) ≠ none) :
    ∀ j < ((List.finRange 16).take n).length,
      s.memRead (s.i + BitVec.ofNat 16 j).toNat ≠ none := by
  intro j hj
  rw [length_take_finRange h] at hj
  exact hr ⟨j, hj.trans_le h⟩ hj

/-- Where every address can be written, dumping the registers below n leaves each at its address,
`I` higher by n, and every other byte as it was (R285). -/
theorem dumpRegs_below (h : n ≤ 16)
    (hr : ∀ j : Reg, j.val < n → s.memRead (s.regAddr j) ≠ none) :
    ∃ m, dumpRegs ((List.finRange 16).take n) s =
        .go { s with mem := m, i := s.i + BitVec.ofNat 16 n } ∧
      (∀ j : Reg, j.val < n →
        State.memRead { s with mem := m } (s.regAddr j) = some (s.reg j)) ∧
      ∀ A, (∀ j : Reg, j.val < n → reduceAddr s.cfg.addrPolicy (s.regAddr j) ≠ some A) →
        State.peek { s with mem := m } A = s.peek A := by
  have hlen := length_take_finRange h
  obtain ⟨m, he, hw, hf⟩ := dumpRegs_spec _ s (by rw [hlen, memSize]; omega)
    (readable_take_finRange h hr)
  rw [hlen] at he hf
  refine ⟨m, he, fun j hj => ?_, fun A hA => hf A fun j hj => hA ⟨j, hj.trans_le h⟩ hj⟩
  simpa [State.regAddr] using hw j.val (hj.trans_eq hlen.symm)

/-- Where every address can be read, loading the registers below n gives each the byte at its
address, leaves `I` higher by n, and keeps the registers from n on (R286). -/
theorem loadRegs_below (h : n ≤ 16)
    (hr : ∀ j : Reg, j.val < n → s.memRead (s.regAddr j) ≠ none) :
    ∃ v, loadRegs ((List.finRange 16).take n) s =
        .go { s with v := v, i := s.i + BitVec.ofNat 16 n } ∧
      (∀ j : Reg, j.val < n →
        s.memRead (s.regAddr j) = some (State.reg { s with v := v } j)) ∧
      ∀ j : Reg, n ≤ j.val → State.reg { s with v := v } j = s.reg j := by
  have hlen := length_take_finRange h
  obtain ⟨v, he, hw, hf⟩ := loadRegs_spec _ s (nodup_take_finRange n)
    (readable_take_finRange h hr)
  rw [hlen] at he
  refine ⟨v, he, fun j hj => ?_, fun j hj => hf j (mt mem_take_finRange.1 (not_lt.2 hj))⟩
  simpa [State.regAddr] using hw j.val (hj.trans_eq hlen.symm)

/-! ## The first address that faults -/

/-- FX55's loop stops at the first address that faults, the registers below it dumped (R285). -/
theorem dumpRegs_halt (hk : k ≤ x) (hn : s.memRead (s.regAddr k) = none)
    (hr : ∀ j : Reg, j < k → s.memRead (s.regAddr j) ≠ none) :
    ∃ m, dumpRegs (regsUpTo x) s =
        .halt ({ s with mem := m, i := s.i + BitVec.ofNat 16 k.val }.raiseIns .memBounds
          (.address (s.regAddr k))) ∧
      (∀ j : Reg, j < k → State.memRead { s with mem := m } (s.regAddr j) = some (s.reg j)) ∧
      ∀ A, (∀ j : Reg, j < k → reduceAddr s.cfg.addrPolicy (s.regAddr j) ≠ some A) →
        State.peek { s with mem := m } A = s.peek A := by
  obtain ⟨m, he, hw, hf⟩ := dumpRegs_below k.isLt.le hr
  obtain ⟨rest, hrest⟩ := regsUpTo_split hk
  have hstop (b : Byte) : State.memWrite { s with mem := m, i := s.i + BitVec.ofNat 16 k.val }
      (s.regAddr k) b = none := State.memWrite_eq_none.2 (State.memRead_eq_none (s := s).1 hn)
  refine ⟨m, ?_, hw, hf⟩
  rw [hrest, dumpRegs_append, he, Flow.andThen_go, dumpRegs]
  exact hstop _ ▸ rfl

/-- FX65's loop stops at the first address that faults, the registers below it loaded (R286). -/
theorem loadRegs_halt (hk : k ≤ x) (hn : s.memRead (s.regAddr k) = none)
    (hr : ∀ j : Reg, j < k → s.memRead (s.regAddr j) ≠ none) :
    ∃ v, loadRegs (regsUpTo x) s =
        .halt ({ s with v := v, i := s.i + BitVec.ofNat 16 k.val }.raiseIns .memBounds
          (.address (s.regAddr k))) ∧
      (∀ j : Reg, j < k → s.memRead (s.regAddr j) = some (State.reg { s with v := v } j)) ∧
      ∀ j : Reg, k ≤ j → State.reg { s with v := v } j = s.reg j := by
  obtain ⟨v, he, hw, hf⟩ := loadRegs_below k.isLt.le hr
  obtain ⟨rest, hrest⟩ := regsUpTo_split hk
  have hstop : State.memRead { s with v := v, i := s.i + BitVec.ofNat 16 k.val }
      (s.regAddr k) = none := hn
  refine ⟨v, ?_, hw, hf⟩
  rw [hrest, loadRegs_append, he, Flow.andThen_go, loadRegs]
  exact hstop ▸ rfl

end

/-! ## FX55 and FX65 -/

/-- Settles O58, by the registers below x + 1, or below the first address that faults. -/
theorem registerDumpStoresAndAdvances : Obligations.RegisterDumpStoresAndAdvances := by
  intro s x
  refine ⟨decodeWord_wordXK _ rfl, fun hr => ?_, fun k hk hn hr => ?_⟩
  · obtain ⟨m, he, hw, hf⟩ := dumpRegs_below x.isLt fun j hj => hr j (Nat.le_of_lt_succ hj)
    exact ⟨_, congrArg (Host.Outcome.next ∘ Flow.state) he,
      fun k hk => hw k (Nat.lt_succ_of_le hk), rfl,
      fun A hA => hf A fun j hj => hA j (Nat.le_of_lt_succ hj), fun _ _ => rfl, rfl⟩
  · obtain ⟨m, he, hw, hf⟩ := dumpRegs_halt hk hn hr
    exact ⟨_, congrArg (Host.Outcome.next ∘ Flow.state) he, hw, rfl, hf, fun _ _ => rfl, rfl⟩

/-- Settles O59, by the registers below x + 1, or below the first address that faults. -/
theorem registerLoadReadsAndAdvances : Obligations.RegisterLoadReadsAndAdvances := by
  intro s x
  refine ⟨decodeWord_wordXK _ rfl, fun hr => ?_, fun k hk hn hr => ?_⟩
  · obtain ⟨v, he, hw, hf⟩ := loadRegs_below x.isLt fun j hj => hr j (Nat.le_of_lt_succ hj)
    exact ⟨_, congrArg (Host.Outcome.next ∘ Flow.state) he,
      fun k hk => hw k (Nat.lt_succ_of_le hk), hf, rfl, fun _ _ => rfl, rfl⟩
  · obtain ⟨v, he, hw, hf⟩ := loadRegs_halt hk hn hr
    exact ⟨_, congrArg (Host.Outcome.next ∘ Flow.state) he, hw, hf, rfl, fun _ _ => rfl, rfl⟩

/-- Settles O60: under `Wrap` both run to their end, and the load reads the bytes of the dump. -/
theorem loadAfterDumpRestoresRegisters : Obligations.LoadAfterDumpRestoresRegisters := by
  intro s t t' u x hwrap hdump hmem hcfg hi hload
  obtain ⟨-, hdumps, -⟩ := registerDumpStoresAndAdvances s x
  obtain ⟨-, hloads, -⟩ := registerLoadReadsAndAdvances t' x
  obtain ⟨_, hd, hstored, hti, -, -, htframe⟩ := hdumps fun k _ => by
    simp [State.memRead_wrap hwrap]
  obtain ⟨_, hl, hloaded, -, hui, -, huframe⟩ := hloads fun k _ => by
    simp [State.memRead_wrap (hcfg ▸ hwrap)]
  obtain rfl := Host.Outcome.next.inj (hd.symm.trans hdump)
  obtain rfl := Host.Outcome.next.inj (hl.symm.trans hload)
  have hread := State.memRead_congr hmem (hcfg.trans (by rw [htframe]))
  have haddr (k : Reg) : t'.regAddr k = s.regAddr k := by rw [State.regAddr, hi]; rfl
  refine ⟨fun k hk => Option.some.inj ?_, by rw [hui, hti, hi], by rw [huframe]⟩
  rw [← hloaded k hk, hread, haddr, hstored k hk]

end Sys2Proof.Machine
end

section
/-! PROOFS. The causes for which an instruction halts the CORE: what each of the eight instructions
that can halt leaves recorded, and that no other instruction halts. -/

namespace Sys2Proof

/-- The instructions that the "raised by" column of R311 names. -/
def Instr.canHalt : Instr → Bool
  | .ret | .call _ | .cls | .drw _ _ _ | .ldStVx _ | .ldBVx _ | .ldMemVx _ | .ldVxMem _ => true
  | _ => false

end Sys2Proof

namespace Sys2Proof.Machine

/-- An instruction that R311 does not name leaves the CORE running (R311). -/
theorem exec_halted_of_not_canHalt {i : Instr} {s t : State} (h : exec i s = .next t)
    (hi : i.canHalt = false) : t.halted = s.halted := by
  cases i
  case cls | drw | ret | call | ldStVx | ldBVx | ldMemVx | ldVxMem => cases hi
  case ldVxK x =>
    rcases exec_ldVxK_cases x s with ⟨_, _, e⟩ | ⟨_, e⟩ <;> cases e.symm.trans h <;> rfl
  case seImm | sneImm | seReg | sneReg | skp | sknp =>
    cases h
    rw [State.skipIf_eq]
    rfl
  all_goals
    cases h
    rfl

section
variable {s t : State}

/-- The CORE has halted by MemBounds, code 4: under `Fault` alone, at an address above 0xFFF (R64,
R316). -/
def State.BoundsFault (s t : State) : Prop :=
  s.cfg.addrPolicy = .fault ∧
    ∃ a, 0xFFF < a ∧ t.fault = s.insFault .memBounds (.address a) ∧ t.fault.kind.code = 4

/-- An address that does not reduce is one above 0xFFF under `Fault` (R64). -/
theorem State.boundsFault_of_unreduced {a : Nat} (ha : reduceAddr s.cfg.addrPolicy a = none)
    (hf : t.fault = s.insFault .memBounds (.address a)) : s.BoundsFault t := by
  obtain ⟨hp, hlt⟩ := reduceAddr_eq_none.1 ha
  exact ⟨hp, a, hlt, hf, hf ▸ rfl⟩

/-! In each lemma below the outcomes without a fault keep `halted` clear, against `ht`. -/

variable (hs : s.halted = false) (ht : t.halted = true)
include hs ht

/-- RET halts with an empty stack only (R314). -/
theorem exec_ret_halts (h : exec .ret s = .next t) :
    s.stack = [] ∧ t.fault = s.insFault .stackUnderflow .noInfo ∧ t.fault.kind.code = 2 := by
  rcases exec_ret_cases s with ⟨_, _, _, e⟩ | ⟨hst, e⟩ <;> cases e.symm.trans h
  · exact Bool.noConfusion (hs.symm.trans ht)
  · exact ⟨hst, rfl, rfl⟩

/-- CALL halts with a full stack only (R315). -/
theorem exec_call_halts {nnn : Addr} (h : exec (.call nnn) s = .next t) :
    s.cfg.stackDepth ≤ s.sp ∧ t.fault = s.insFault .stackOverflow .noInfo ∧
      t.fault.kind.code = 3 := by
  rcases exec_call_cases nnn s with ⟨_, e⟩ | ⟨hfull, e⟩ <;> cases e.symm.trans h
  · exact Bool.noConfusion (hs.symm.trans ht)
  · exact ⟨hfull, rfl, rfl⟩

/-- CLS halts only where the display refuses its frame (R317). -/
theorem exec_cls_halts (h : exec .cls s = .next t) :
    s.flushAnswer.ok = false ∧ t.fault = s.insFault .hostIo .display ∧
      t.fault.kind.code = 5 := by
  rcases exec_cls_cases s with ⟨_, e⟩ | ⟨hok, e⟩ <;> cases e.symm.trans h
  · exact Bool.noConfusion (hs.symm.trans ht)
  · exact ⟨hok, rfl, rfl⟩

/-- DRW halts only where the display refuses its frame, or at a row it cannot read (R316, R317). -/
theorem exec_drw_halts {x y : Reg} {n : BitVec 4} (h : exec (.drw x y n) s = .next t) :
    (s.flushAnswer.ok = false ∧ t.fault = s.insFault .hostIo .display ∧
      t.fault.kind.code = 5) ∨ s.BoundsFault t := by
  obtain ⟨_, _, _, ⟨_, e⟩ | ⟨hok, e⟩ | ⟨_, ha, e⟩⟩ := exec_drw_cases x y n s <;>
    cases e.symm.trans h
  · exact Bool.noConfusion (hs.symm.trans ht)
  · exact .inl ⟨hok, rfl, rfl⟩
  · exact .inr (State.boundsFault_of_unreduced ha rfl)

/-- FX18 halts only at a tone transition that the audio refuses (R317, R334). -/
theorem exec_ldStVx_halts {x : Reg} (h : exec (.ldStVx x) s = .next t) :
    ¬ (s.reg x = 0 ↔ s.st = 0) ∧ s.audioAnswer = false ∧
      t.fault = s.insFault .hostIo .audio ∧ t.fault.kind.code = 5 := by
  rcases exec_ldStVx_cases x s with ⟨_, e⟩ | ⟨_, _, e⟩ | ⟨htone, ha, e⟩ <;>
    cases e.symm.trans h
  · exact Bool.noConfusion (hs.symm.trans ht)
  · exact Bool.noConfusion (hs.symm.trans ht)
  · exact ⟨mt (s.tone_stands_iff _).2 htone, ha, rfl, rfl⟩

/-- FX33, FX55 and FX65 halt only at an address that does not reduce (R316). -/
theorem exec_memory_halts {i : Instr} {x : Reg} (hi : i ∈ [.ldBVx x, .ldMemVx x, .ldVxMem x])
    (h : exec i s = .next t) : s.BoundsFault t := by
  simp only [List.mem_cons, List.not_mem_nil, or_false] at hi
  rcases hi with rfl | rfl | rfl
  · obtain ⟨_, _, e | ⟨_, ha, e⟩⟩ := exec_ldBVx_cases x s <;> cases e.symm.trans h
    · exact Bool.noConfusion (hs.symm.trans ht)
    · exact State.boundsFault_of_unreduced ha rfl
  · obtain ⟨_, _, _, e | ⟨_, ha, e⟩⟩ := exec_ldMemVx_cases x s <;> cases e.symm.trans h
    · exact Bool.noConfusion (hs.symm.trans ht)
    · exact State.boundsFault_of_unreduced ha rfl
  · obtain ⟨_, _, _, e | ⟨_, ha, e⟩⟩ := exec_ldVxMem_cases x s <;> cases e.symm.trans h
    · exact Bool.noConfusion (hs.symm.trans ht)
    · exact State.boundsFault_of_unreduced ha rfl

end

/-- Settles O29: an instruction that R311 does not name keeps `halted`; each of the others halts by
its own causes. -/
theorem instructionsHaltOnlyAsListed : Obligations.InstructionsHaltOnlyAsListed := by
  intro i s t hs h ht
  cases hi : i.canHalt with
  | false =>
    exact Bool.noConfusion (hs.symm.trans ((exec_halted_of_not_canHalt h hi).symm.trans ht))
  | true =>
    cases i
    case ret => exact .inl ⟨rfl, exec_ret_halts hs ht h⟩
    case call nnn => exact .inr (.inl ⟨⟨nnn, rfl⟩, exec_call_halts hs ht h⟩)
    case cls => exact .inr (.inr (.inl ⟨.inl rfl, exec_cls_halts hs ht h⟩))
    case drw x y n =>
      rcases exec_drw_halts hs ht h with hdisplay | hbounds
      · exact .inr (.inr (.inl ⟨.inr ⟨x, y, n, rfl⟩, hdisplay⟩))
      · exact .inr (.inr (.inr (.inr ⟨.inl ⟨x, y, n, rfl⟩, hbounds⟩)))
    case ldStVx x =>
      obtain ⟨htone, haudio⟩ := exec_ldStVx_halts hs ht h
      exact .inr (.inr (.inr (.inl ⟨⟨x, rfl, htone⟩, haudio⟩)))
    case ldBVx x | ldMemVx x | ldVxMem x =>
      refine .inr (.inr (.inr (.inr ⟨.inr ⟨x, ?_⟩, exec_memory_halts (x := x) hs ht ?_ h⟩))) <;>
        simp
    all_goals cases hi

end Sys2Proof.Machine
end
